-- ==== Sys2Proof/Word.lean ====
section
/-! DEFINITION. The data word of the machine and the text its instructions are made of. -/

namespace Sys2Proof

/-- A u32: every register, memory word and operand value (00_scope.md R10, 10_state.md R30). -/
abbrev Word := BitVec 32

/-- A string of characters: instruction lines, tokens, label names, messages (30_encoding.md R90). -/
abbrev Text := List Char

/-- A general register's index, 0 to 11 (10_state.md R31). -/
abbrev RegIx := Fin 12

end Sys2Proof
end

