-- ==== Sys2Proof/Config.lean ====
section
/-! DEFINITION. What an implementation fixes: the two open parameters of a run, and the one free
value the spec leaves open (message texts). -/

namespace Sys2Proof

/-- What a malformed numeric operand does (00_scope.md R8, `PARSE_FAILURE_POLICY`). -/
inductive ParseFailurePolicy where
  /-- It ends the whole run (40_dispatch.md R154); the default. -/
  | abort
  /-- It is handled as the recoverable `InvalidArgument`. -/
  | recoverAsInvalidArgument
  deriving DecidableEq, Repr

/-- The open parameters of 00_scope.md R8. They are inputs of a run, and no step changes them (R9). -/
structure Params where
  /-- `BRANCH_LANDS_AFTER_LABEL`: `true`, a taken BEQ leaves pc = label index + 1. -/
  branchLandsAfterLabel : Bool
  /-- `PARSE_FAILURE_POLICY`. -/
  parseFailurePolicy : ParseFailurePolicy
  deriving DecidableEq, Repr

/-- The parameters' default values, as 00_scope.md R8 gives them. -/
def Params.default : Params :=
  { branchLandsAfterLabel := true, parseFailurePolicy := .abort }

/-- FREE VALUE (assumption log 1): the text of the `n`-th message the spec leaves as "any string",
that of an `OutOfRange` error or of a parse failure recovered as `InvalidArgument`
(40_dispatch.md R152, R154; 93_implementation_defined.md I9). It has no body: nothing can be proved
about the text. -/
opaque Config.freeMessage : Nat → Text

end Sys2Proof
end

