-- ==== Sys2Proof/Syntax.lean ====
section
/-! DEFINITION. The instructions as syntax: the decoder's output of 30_encoding.md R124, and `Instr`,
one constructor per row of spec/opcode_table.json. -/

namespace Sys2Proof

/-- The six condition suffixes (30_encoding.md R100). -/
inductive Cond where
  | eq | ne | gt | ge | lt | le
  deriving DecidableEq, Repr

/-- The sixteen base opcodes (30_encoding.md R102), in the dispatch order of R121. -/
inductive Opcode where
  | mov | mvn | cmp | add | sub | and | orr | eor | lsl | lsr | asr | ror | ldr | str | beq | nop
  deriving DecidableEq, Repr

/-- What a mnemonic leaves when its suffixes are stripped (30_encoding.md R102, R124). -/
inductive Base where
  /-- One of the sixteen base opcodes. -/
  | known (op : Opcode)
  /-- Any other text: an unknown instruction (R118). -/
  | unknown (name : Text)
  deriving DecidableEq, Repr

/-- The suffixes of a mnemonic: the flag-update request and the condition (30_encoding.md R100, R101). -/
structure Mods where
  /-- The `S` suffix. -/
  setflags : Bool
  /-- The condition suffix, `none` when there is none. -/
  cond : Option Cond
  deriving DecidableEq, Repr

/-- The decoded operation of one line, its operand tokens kept as text (30_encoding.md R124). -/
inductive DecodedOp where
  /-- No token, or a residual label marker: the line is a no-op (R97, R98). -/
  | skip
  /-- A mnemonic and its operand tokens. -/
  | op (base : Base) (mods : Mods) (operands : List Text)
  deriving DecidableEq, Repr

/-- A token that begins with `R`, as every register designator's must (30_encoding.md R111); `index`
is the rest of the token, parsed only at execution (R107). -/
structure RegToken where
  index : Text
  deriving DecidableEq, Repr

/-- A token of the form `[R...]`, as every memory operand's must be (30_encoding.md R112). -/
structure MemToken where
  base : RegToken
  deriving DecidableEq, Repr

/-- An instruction: one constructor per row of spec/opcode_table.json. A value operand (class V of
30_encoding.md R114) is the token as written, `none` when the line does not fill the slot (R105). -/
inductive Instr where
  | mov (m : Mods) (rd : RegToken) (src : Option Text)
  | mvn (m : Mods) (rd : RegToken) (src : Option Text)
  | cmp (m : Mods) (op1 op2 : Option Text)
  | add (m : Mods) (rd : RegToken) (rn op2 : Option Text)
  | sub (m : Mods) (rd : RegToken) (rn op2 : Option Text)
  | and (m : Mods) (rd : RegToken) (rn op2 : Option Text)
  | orr (m : Mods) (rd : RegToken) (rn op2 : Option Text)
  | eor (m : Mods) (rd : RegToken) (rn op2 : Option Text)
  | lsl (m : Mods) (rd : RegToken) (rn amount : Option Text)
  | lsr (m : Mods) (rd : RegToken) (rn amount : Option Text)
  | asr (m : Mods) (rd : RegToken) (rn amount : Option Text)
  | ror (m : Mods) (rd : RegToken) (rn amount : Option Text)
  | ldr (m : Mods) (rd : RegToken) (base : MemToken)
  | str (m : Mods) (rd : RegToken) (base : MemToken)
  | beq (m : Mods) (label : Text)
  | nop (m : Mods)
  deriving DecidableEq, Repr

/-- What a line of a well-formed program is (30_encoding.md R124, R125). -/
inductive Line where
  /-- A defensive no-op (R97, R98). -/
  | skip
  /-- An instruction whose base is none of the sixteen; its operands are never looked at (R118). -/
  | unknown (m : Mods) (name : Text)
  /-- One of the sixteen, its slots filled as R125 asks. -/
  | instr (i : Instr)
  deriving DecidableEq, Repr

/-- The label table `L`: each label name with the instruction index it names (10_state.md R44,
30_encoding.md R94). -/
abbrev LabelTable := List (Text × Nat)

/-- Why a program is not well-formed, so that the spec gives it no meaning (30_encoding.md R125, R126). -/
inductive IllFormed where
  /-- More operand tokens than the opcode takes. -/
  | extraOperand
  /-- A register designator or memory operand slot is not filled. -/
  | missingDesignator
  /-- BEQ without its label. -/
  | missingLabel
  /-- A designator slot's token does not begin with `R`. -/
  | designatorNotRegister
  /-- A memory operand slot's token is not of the form `[R...]`. -/
  | memOperandForm
  /-- A label's index is above the number of lines. -/
  | labelIndexRange
  /-- Two entries of the label table have one name, so that it is no finite map (10_state.md R44;
  assumption log 5). -/
  | duplicateLabel
  /-- A line is the empty string (R125 item 1). -/
  | emptyLine
  /-- There is no line. -/
  | emptyProgram
  deriving DecidableEq, Repr

/-- The suffixes an instruction carries. -/
def Instr.mods : Instr → Mods
  | .mov m _ _ => m
  | .mvn m _ _ => m
  | .cmp m _ _ => m
  | .add m _ _ _ => m
  | .sub m _ _ _ => m
  | .and m _ _ _ => m
  | .orr m _ _ _ => m
  | .eor m _ _ _ => m
  | .lsl m _ _ _ => m
  | .lsr m _ _ _ => m
  | .asr m _ _ _ => m
  | .ror m _ _ _ => m
  | .ldr m _ _ => m
  | .str m _ _ => m
  | .beq m _ => m
  | .nop m => m

/-- The base opcode an instruction's constructor stands for. -/
def Instr.opcode : Instr → Opcode
  | .mov _ _ _ => .mov
  | .mvn _ _ _ => .mvn
  | .cmp _ _ _ => .cmp
  | .add _ _ _ _ => .add
  | .sub _ _ _ _ => .sub
  | .and _ _ _ _ => .and
  | .orr _ _ _ _ => .orr
  | .eor _ _ _ _ => .eor
  | .lsl _ _ _ _ => .lsl
  | .lsr _ _ _ _ => .lsr
  | .asr _ _ _ _ => .asr
  | .ror _ _ _ _ => .ror
  | .ldr _ _ _ => .ldr
  | .str _ _ _ => .str
  | .beq _ _ => .beq
  | .nop _ => .nop

end Sys2Proof
end

