-- ==== Sys2Proof/Decode.lean ====
section
/-! DEFINITION. The decoder of 30_encoding.md: tokenization, the mnemonic's suffixes, the opcode map,
the operand slots, the well-formedness check of a program; then the encoder, which spells an
instruction as R122 does. -/

namespace Sys2Proof

/-! ## Tokenization (R95, R96) -/

/-- Every comma becomes a space (R95). -/
def normalizeCommas (line : Text) : Text :=
  line.map fun c => if c = ',' then ' ' else c

/-- The separator characters: space, HT, LF, VT, FF and CR (R96). -/
def isSeparator (c : Char) : Bool :=
  c.toNat = 0x20 || (0x09 ≤ c.toNat && c.toNat ≤ 0x0D)

/-- A finished token joins the tokens after it; an empty run of characters is no token (R96). -/
def pushToken (token : Text) (rest : List Text) : List Text :=
  if token = [] then rest else token :: rest

/-- The maximal non-empty runs of token characters; `token` is the run read so far (R96). -/
def splitTokens : (token : Text) → Text → List Text
  | token, [] => pushToken token []
  | token, c :: cs =>
    if isSeparator c then pushToken token (splitTokens [] cs) else splitTokens (token ++ [c]) cs

/-- The tokens of an instruction line (R95, R96). -/
def tokenize (line : Text) : List Text :=
  splitTokens [] (normalizeCommas line)

/-! ## The mnemonic (R99 to R103) -/

/-- The spelling of a condition suffix (R100). -/
def condText : Cond → Text
  | .eq => ['E', 'Q']
  | .ne => ['N', 'E']
  | .gt => ['G', 'T']
  | .ge => ['G', 'E']
  | .lt => ['L', 'T']
  | .le => ['L', 'E']

/-- The set `CONDS` of R100. -/
def conds : List Cond := [.eq, .ne, .gt, .ge, .lt, .le]

/-- The spelling of a base opcode: the "match" column of the opcode table (R102). -/
def opcodeText : Opcode → Text
  | .mov => ['M', 'O', 'V']
  | .mvn => ['M', 'V', 'N']
  | .cmp => ['C', 'M', 'P']
  | .add => ['A', 'D', 'D']
  | .sub => ['S', 'U', 'B']
  | .and => ['A', 'N', 'D']
  | .orr => ['O', 'R', 'R']
  | .eor => ['E', 'O', 'R']
  | .lsl => ['L', 'S', 'L']
  | .lsr => ['L', 'S', 'R']
  | .asr => ['A', 'S', 'R']
  | .ror => ['R', 'O', 'R']
  | .ldr => ['L', 'D', 'R']
  | .str => ['S', 'T', 'R']
  | .beq => ['B', 'E', 'Q']
  | .nop => ['N', 'O', 'P']

/-- The sixteen base opcodes (R102). -/
def opcodes : List Opcode :=
  [.mov, .mvn, .cmp, .add, .sub, .and, .orr, .eor, .lsl, .lsr, .asr, .ror, .ldr, .str, .beq, .nop]

/-- The condition a two-character text spells, if it is one of the six (R100). -/
def readCond (t : Text) : Option Cond := conds.find? fun c => condText c = t

/-- Strips the condition suffix, once at most; the exact mnemonic `BEQ` is exempt (R100). -/
def splitCond (m : Text) : Option Cond × Text :=
  if m = opcodeText .beq then (none, m)
  else
    match readCond (m.drop (m.length - 2)) with
    | some c => (some c, m.take (m.length - 2))
    | none => (none, m)

/-- Strips the flag-update suffix `S`, once at most (R101). -/
def splitFlag (rest : Text) : Bool × Text :=
  if rest.getLast? = some 'S' then (true, rest.dropLast) else (false, rest)

/-- The base opcode, looked up exactly (R102). -/
def readBase (b : Text) : Base :=
  match opcodes.find? fun o => opcodeText o = b with
  | some o => .known o
  | none => .unknown b

/-- A mnemonic's base opcode and suffixes, the condition stripped first (R99 to R102). -/
def splitMnemonic (m : Text) : Base × Mods :=
  let c := splitCond m
  let f := splitFlag c.2
  (readBase f.2, { setflags := f.1, cond := c.1 })

/-! ## The decode function (R124) -/

/-- `decode(line)` of R124: total, and a function of the line's text alone (R120). -/
def decode (line : Text) : DecodedOp :=
  match tokenize line with
  | [] => .skip
  | m :: operands =>
    if m.getLast? = some ':' then .skip
    else .op (splitMnemonic m).1 (splitMnemonic m).2 operands

/-! ## The operand slots (R111 to R114, R125) -/

/-- The most operand tokens an opcode takes (R114). -/
def maxOperands : Opcode → Nat
  | .mov | .mvn | .cmp | .ldr | .str => 2
  | .add | .sub | .and | .orr | .eor | .lsl | .lsr | .asr | .ror => 3
  | .beq => 1
  | .nop => 0

/-- A register-designator slot: filled, and its token begins with `R` (R111, R125). -/
def designatorSlot : Option Text → Except IllFormed RegToken
  | none => .error .missingDesignator
  | some ('R' :: index) => .ok ⟨index⟩
  | some _ => .error .designatorNotRegister

/-- A memory-operand token `[R...]` with no bracket inside (R112). -/
def readMemToken (t : Text) : Option MemToken :=
  match t with
  | '[' :: 'R' :: rest =>
    if rest.getLast? = some ']' ∧ ¬ (rest.dropLast.any fun c => c = '[' || c = ']') then
      some ⟨⟨rest.dropLast⟩⟩
    else none
  | _ => none

/-- A memory-operand slot: filled, and its token is of the form `[R...]` (R112, R125). -/
def memSlot : Option Text → Except IllFormed MemToken
  | none => .error .missingDesignator
  | some t =>
    match readMemToken t with
    | some mem => .ok mem
    | none => .error .memOperandForm

/-- A label slot: any token (R113), but filled (R125). -/
def labelSlot : Option Text → Except IllFormed Text
  | none => .error .missingLabel
  | some t => .ok t

/-- Fills the slots of an opcode from the operand tokens, by position (R91, R114). -/
def readSlots (op : Opcode) (m : Mods) (operands : List Text) : Except IllFormed Instr :=
  let rd := designatorSlot operands[0]?
  let v1 := operands[0]?
  let v2 := operands[1]?
  let v3 := operands[2]?
  match op with
  | .mov => rd.map fun d => .mov m d v2
  | .mvn => rd.map fun d => .mvn m d v2
  | .cmp => .ok (.cmp m v1 v2)
  | .add => rd.map fun d => .add m d v2 v3
  | .sub => rd.map fun d => .sub m d v2 v3
  | .and => rd.map fun d => .and m d v2 v3
  | .orr => rd.map fun d => .orr m d v2 v3
  | .eor => rd.map fun d => .eor m d v2 v3
  | .lsl => rd.map fun d => .lsl m d v2 v3
  | .lsr => rd.map fun d => .lsr m d v2 v3
  | .asr => rd.map fun d => .asr m d v2 v3
  | .ror => rd.map fun d => .ror m d v2 v3
  | .ldr => rd.bind fun d => (memSlot v2).map fun b => .ldr m d b
  | .str => rd.bind fun d => (memSlot v2).map fun b => .str m d b
  | .beq => (labelSlot v1).map fun l => .beq m l
  | .nop => .ok (.nop m)

/-- The instruction of a known opcode, or the check of R125 item 3 that fails: the slots from the
left, then the count (the order gives each line of R126 the reason it has there; assumption log 6). -/
def fillSlots (op : Opcode) (m : Mods) (operands : List Text) : Except IllFormed Instr :=
  (readSlots op m operands).bind fun i =>
    if maxOperands op < operands.length then .error .extraOperand else .ok i

/-- What a line is, or why the program that holds it is refused. Lines that decode to a skip or to an
unknown base are not checked beyond being non-empty (R125). -/
def decodeLine (line : Text) : Except IllFormed Line :=
  if line = [] then .error .emptyLine
  else
    match decode line with
    | .skip => .ok .skip
    | .op (.unknown name) m _ => .ok (.unknown m name)
    | .op (.known op) m operands => (fillSlots op m operands).map .instr

/-! ## Program well-formedness (R125, R126) -/

/-- The first check of R125 items 1 and 3 that a list of lines fails. -/
def linesProblem : List Text → Option IllFormed
  | [] => none
  | line :: rest =>
    match decodeLine line with
    | .error e => some e
    | .ok _ => linesProblem rest

/-- The check of R125 item 2 on a table for `n` lines, and that its names are unique (10_state.md R44). -/
def labelsProblem (n : Nat) (labels : LabelTable) : Option IllFormed :=
  if ¬ (labels.all fun e => e.2 ≤ n) then some .labelIndexRange
  else if ¬ (labels.map Prod.fst).Nodup then some .duplicateLabel
  else none

/-- Why a program is refused before its first step, `none` when it is well-formed (R125). -/
def programProblem (prog : List Text) (labels : LabelTable) : Option IllFormed :=
  if prog = [] then some .emptyProgram
  else
    match linesProblem prog with
    | some e => some e
    | none => labelsProblem prog.length labels

/-! ## The encoder (R122) -/

/-- The token `R...`. -/
def RegToken.text (r : RegToken) : Text := 'R' :: r.index

/-- The token `[R...]`. -/
def MemToken.text (t : MemToken) : Text := '[' :: (t.base.text ++ [']'])

/-- The canonical mnemonic, base then `S` then condition (R101, R122). -/
def mnemonicText (op : Opcode) (m : Mods) : Text :=
  opcodeText op ++ (if m.setflags then ['S'] else []) ++ (m.cond.map condText).getD []

/-- An instruction's operand tokens, in slot order (R114). -/
def Instr.operands : Instr → List Text
  | .mov _ rd src => rd.text :: src.toList
  | .mvn _ rd src => rd.text :: src.toList
  | .cmp _ a b => a.toList ++ b.toList
  | .add _ rd a b => rd.text :: (a.toList ++ b.toList)
  | .sub _ rd a b => rd.text :: (a.toList ++ b.toList)
  | .and _ rd a b => rd.text :: (a.toList ++ b.toList)
  | .orr _ rd a b => rd.text :: (a.toList ++ b.toList)
  | .eor _ rd a b => rd.text :: (a.toList ++ b.toList)
  | .lsl _ rd a b => rd.text :: (a.toList ++ b.toList)
  | .lsr _ rd a b => rd.text :: (a.toList ++ b.toList)
  | .asr _ rd a b => rd.text :: (a.toList ++ b.toList)
  | .ror _ rd a b => rd.text :: (a.toList ++ b.toList)
  | .ldr _ rd base => [rd.text, base.text]
  | .str _ rd base => [rd.text, base.text]
  | .beq _ label => [label]
  | .nop _ => []

/-- The operand tokens after the mnemonic: a space before the first, a comma and a space before every
later one (R122). -/
def operandsText : List Text → Text
  | [] => []
  | t :: ts => ' ' :: (t ++ ts.flatMap fun u => ',' :: ' ' :: u)

/-- The canonical line of an instruction, `BASE{S}{cond} op, op, op` with its suffixes optional (R122). -/
def encode (i : Instr) : Text :=
  mnemonicText i.opcode i.mods ++ operandsText i.operands

/-! ## Lines as numbers

The ISA has no binary form (R90), and the opcode table gives its rows no bits: a line is laid out as
bytes, one a character, the first lowest, and a zero byte ends it (assumption log 9). -/

/-- The text that up to `k` bytes of `w` spell, the least significant byte first. -/
def textOfBytes : (k : Nat) → (w : Nat) → Text
  | 0, _ => []
  | k + 1, w => if w % 256 = 0 then [] else Char.ofNat (w % 256) :: textOfBytes k (w / 256)

/-- The line whose characters are the bytes of `w`, `nbits` bits of it. -/
def lineOfWord (nbits w : Nat) : Text := textOfBytes ((nbits + 7) / 8) w

/-- The instruction the decoder reads from the line `w` spells. -/
def decodeTableWord (nbits w : Nat) : Option Instr :=
  match decodeLine (lineOfWord nbits w) with
  | .ok (.instr i) => some i
  | _ => none

end Sys2Proof
end

