-- ==== Sys2Proof/WellFormed.lean ====
section
/-! DEFINITION. Which terms of `Instr` are instructions a line can spell: the checks on their tokens. -/

namespace Sys2Proof

/-- A token is non-empty and holds no comma and no separator (30_encoding.md R95, R96). -/
def tokenOk (t : Text) : Bool :=
  decide (t ≠ []) && t.all fun c => !(decide (c = ',') || isSeparator c)

/-- A register token's rest holds no comma and no separator; it may be empty (the token `R`, R107). -/
def RegToken.wf (r : RegToken) : Bool := tokenOk r.text

/-- A memory operand's inner token holds no bracket either (R112). -/
def MemToken.wf (t : MemToken) : Bool :=
  t.base.wf && t.base.index.all fun c => !(decide (c = '[') || decide (c = ']'))

/-- A value-operand slot is absent or holds a token (R105). -/
def valueOk : Option Text → Bool
  | none => true
  | some t => tokenOk t

/-- Two value slots at the end of a line: the tokens fill them from the left, so the second is not
filled when the first is absent (R91, R127). -/
def valuesOk (a b : Option Text) : Bool :=
  valueOk a && valueOk b && (a.isSome || b.isNone)

/-- The instruction is one that a line of a program can spell (R114, R125). -/
def Instr.wf : Instr → Bool
  | .mov _ rd src => rd.wf && valueOk src
  | .mvn _ rd src => rd.wf && valueOk src
  | .cmp _ a b => valuesOk a b
  | .add _ rd a b => rd.wf && valuesOk a b
  | .sub _ rd a b => rd.wf && valuesOk a b
  | .and _ rd a b => rd.wf && valuesOk a b
  | .orr _ rd a b => rd.wf && valuesOk a b
  | .eor _ rd a b => rd.wf && valuesOk a b
  | .lsl _ rd a b => rd.wf && valuesOk a b
  | .lsr _ rd a b => rd.wf && valuesOk a b
  | .asr _ rd a b => rd.wf && valuesOk a b
  | .ror _ rd a b => rd.wf && valuesOk a b
  | .ldr _ rd base => rd.wf && base.wf
  | .str _ rd base => rd.wf && base.wf
  | .beq _ label => tokenOk label
  | .nop _ => true

end Sys2Proof
end

