-- ==== Sys2Proof/Machine/State.lean ====
section
/-! DEFINITION. The machine's state as plain data (10_state.md R48), its events, and the reasons a
step can stop. -/

namespace Sys2Proof.Machine

/-- The four flags (10_state.md R39). -/
structure Flags where
  n : Bool
  z : Bool
  c : Bool
  v : Bool
  deriving DecidableEq, Repr

/-- The data memory: pairs of a word's byte address and its value. Only whole words are addressable
and no byte order is fixed (20_memory.md R61, R67), so a cell holds a word. The canonical form
(`Memory.wf` in Ops.lean): addresses of the window, strictly rising, and no word that is 0, which is
what an unlisted word reads as (R65). -/
abbrev Memory := List (Nat × Word)

/-- How the run stands (10_state.md R48). -/
inductive Status where
  | running
  /-- The pc has reached the end of the instruction sequence (40_dispatch.md R141). -/
  | completed
  /-- A malformed numeric operand has ended the run (40_dispatch.md R154). -/
  | aborted (token : Text)
  deriving DecidableEq, Repr

/-- The kinds of a recoverable error (60_exceptions.md R270). -/
inductive ErrorKind where
  | outOfRange
  | invalidArgument
  deriving DecidableEq, Repr

/-- What the machine emits (10_state.md R50). -/
inductive Event where
  /-- The state report of one instruction: its line and the registers, flags and memory after it
  (40_dispatch.md R150). -/
  | report (line : Text) (x : Vector Word 12) (flags : Flags) (mem : Memory)
  /-- A recoverable error (40_dispatch.md R152). -/
  | error (kind : ErrorKind) (message : Text) (line : Text)
  deriving DecidableEq, Repr

/-- What ends an instruction before it writes anything (00_scope.md R13). -/
inductive Failure where
  /-- A register index of 12 or more, or an invalid address (60_exceptions.md R271). -/
  | outOfRange
  /-- An unknown instruction or a bad shift amount (60_exceptions.md R272). -/
  | invalidArgument (message : Text)
  /-- Numeric text that is not a number (60_exceptions.md R273). -/
  | parseError (token : Text)
  deriving DecidableEq, Repr

/-- The machine's state. `prog`, `labels` and `params` are the run's inputs, held here because a step
takes a state alone; no step changes them (00_scope.md R9). -/
structure State where
  /-- The general registers R0 to R11 (10_state.md R30). -/
  x : Vector Word 12
  /-- N, Z, C and V (10_state.md R39). -/
  flags : Flags
  /-- The five memory words (10_state.md R46). -/
  mem : Memory
  /-- The index of the current instruction (10_state.md R34). -/
  pc : Nat
  /-- The end of the run, which no program can read (10_state.md R48). -/
  status : Status
  /-- The events emitted so far, oldest first (40_dispatch.md R156, R158). -/
  trace : List Event
  /-- The instruction sequence `P` (30_encoding.md R93). -/
  prog : List Text
  /-- The label table `L` (10_state.md R44). -/
  labels : LabelTable
  /-- The two open parameters (00_scope.md R8). -/
  params : Params
  /-- The MODEL's own field (assumption log 1): how many free message texts have been used. -/
  freeCount : Nat
  deriving DecidableEq, Repr

/-- Why a step faults: the run has ended, and the spec gives an ended run no step. -/
inductive Fault where
  /-- Raised by a step from a `Completed` state (40_dispatch.md R141, R158). Safe: the machine has no
  step there. -/
  | runCompleted
  /-- Raised by a step from an `Aborted` state (40_dispatch.md R154, R158). Safe: no later
  instruction runs. -/
  | runAborted (token : Text)
  deriving DecidableEq, Repr

/-- Why a step is refused. -/
inductive Refusal where
  /-- Raised by `exec` for an instruction that has no meaning yet; no arm raises it. Safe: nothing
  can be proved of that instruction. -/
  | notModelled (mnemonic : String)
  /-- Raised by a step when the program is not well-formed: the spec gives it no meaning
  (30_encoding.md R125, R126). Safe: nothing can be proved of that program. -/
  | programRefused (why : IllFormed)
  deriving DecidableEq, Repr

/-- The state after reset (70_reset_and_hazards.md R300; 10_state.md R49). The program and the label
table are the loader's, which has loaded nothing yet (R302; assumption log 2). -/
def State.reset : State :=
  { x := Vector.replicate 12 0
    flags := { n := false, z := false, c := false, v := false }
    mem := []
    pc := 0
    status := .running
    trace := []
    prog := []
    labels := []
    params := Params.default
    freeCount := 0 }

end Sys2Proof.Machine
end

