-- ==== Sys2Proof/Machine/Ops.lean ====
section
/-! DEFINITION. The named operations over memory and registers, the events of a step, and how an
instruction ends: normally, in a recoverable error, or by aborting the run. -/

namespace Sys2Proof.Machine

/-! ## Data memory (20_memory.md) -/

/-- The lowest valid address (R63). -/
def memBase : Nat := 0x100

/-- The highest valid address, inclusive (R63; 90_conflicts.md C1). -/
def memTop : Nat := 0x110

/-- An address is valid: in the window and a multiple of 4 (R63). -/
def validAddr (a : Nat) : Bool :=
  decide (memBase ≤ a) && decide (a ≤ memTop) && decide (a % 4 = 0)

/-- The byte address of word `M[k]` (R61). -/
def wordAddr (k : Nat) : Nat := memBase + 4 * k

/-- What a word that nothing has written reads as: 0 (R65). -/
def unlistedWord : Word := 0

/-- The word at a byte address. -/
def Memory.read : Memory → Nat → Word
  | [], _ => unlistedWord
  | (b, v) :: rest, a => if a = b then v else Memory.read rest a

/-- A cell put in front of higher ones; a word that reads as an unlisted one is not listed. -/
def Memory.cons (a : Nat) (v : Word) (rest : Memory) : Memory :=
  if v = unlistedWord then rest else (a, v) :: rest

/-- The memory with one word written; the addresses stay strictly rising. -/
def Memory.write : Memory → Nat → Word → Memory
  | [], a, v => Memory.cons a v []
  | (b, w) :: rest, a, v =>
    if a < b then Memory.cons a v ((b, w) :: rest)
    else if a = b then Memory.cons a v rest
    else (b, w) :: Memory.write rest a v

/-- The canonical form above an address bound: valid addresses from `lo` on, strictly rising, no word
equal to an unlisted one. -/
def Memory.wfFrom : (lo : Nat) → Memory → Bool
  | _, [] => true
  | lo, (a, v) :: rest =>
    decide (lo ≤ a) && validAddr a && decide (v ≠ unlistedWord) && Memory.wfFrom (a + 1) rest

/-- The memory is in its canonical form, so that equal memories are equal data. -/
def Memory.wf (m : Memory) : Bool := Memory.wfFrom 0 m

/-- `mem_index(ea)`: the address check, then the index of the word (R62, R63; 43_load_store.md R230). -/
def memIndex (ea : Word) : Except Failure Nat :=
  if validAddr ea.toNat then .ok ((ea.toNat - memBase) / 4) else .error .outOfRange

/-- The word `M[k]` (R61). -/
def State.loadWord (s : State) (k : Nat) : Word := Memory.read s.mem (wordAddr k)

/-- `M[k] <- v` (R61). -/
def State.storeWord (s : State) (k : Nat) (v : Word) : State :=
  { s with mem := Memory.write s.mem (wordAddr k) v }

/-! ## Registers and flags (10_state.md) -/

/-- `x[i]` (R30). -/
def State.readReg (s : State) (i : RegIx) : Word := s.x[i]

/-- `x[i] <- v` (R30). -/
def State.writeReg (s : State) (i : RegIx) (v : Word) : State := { s with x := s.x.set i v }

/-- Writes the flags when they are asked for (41_alu.md R173). -/
def State.setFlagsIf (s : State) (asked : Bool) (f : Flags) : State :=
  if asked then { s with flags := f } else s

/-! ## Events (40_dispatch.md R150, R152) -/

/-- The text of the current instruction, `P[pc]` (R142). A step runs an instruction only when `pc < N`,
so the empty default is never reported by a step (assumption log 3). -/
def State.line (s : State) : Text := (s.prog[s.pc]?).getD []

/-- `emit Report`: the line and a copy of the registers, flags and memory (R150). -/
def State.emitReport (s : State) (line : Text) : State :=
  { s with trace := s.trace ++ [.report line s.x s.flags s.mem] }

/-- `emit Error` (R152). -/
def State.emitError (s : State) (kind : ErrorKind) (message line : Text) : State :=
  { s with trace := s.trace ++ [.error kind message line] }

/-- `pc <- pc + 1` (R155). -/
def State.advance (s : State) : State := { s with pc := s.pc + 1 }

/-! ## How an instruction ends (40_dispatch.md R149 to R156; 60_exceptions.md R277) -/

/-- TAKING A RECOVERABLE ERROR: nothing is saved and no handler runs; the error event, the report of
the unchanged state, and on to the next instruction (60_exceptions.md R277; 40_dispatch.md R152, R153).
There is no return from it: execution is already resumed (60_exceptions.md R278). -/
def State.takeError (s : State) (kind : ErrorKind) (message : Text) : State :=
  ((s.emitError kind message s.line).emitReport s.line).advance

/-- A recoverable error whose message the spec leaves open: a free text (assumption log 1). -/
def State.takeFreeError (s : State) (kind : ErrorKind) : State :=
  { s with freeCount := s.freeCount + 1 }.takeError kind (Config.freeMessage s.freeCount)

/-- A `ParseError` under `Abort` ends the run: no event, no advance (40_dispatch.md R154). -/
def State.abortRun (s : State) (token : Text) : State := { s with status := .aborted token }

/-- What a failed instruction leaves, from the state before it (40_dispatch.md R152 to R154). -/
def State.fail (s : State) : Failure → State
  | .outOfRange => s.takeFreeError .outOfRange
  | .invalidArgument message => s.takeError .invalidArgument message
  | .parseError token =>
    match s.params.parseFailurePolicy with
    | .abort => s.abortRun token
    | .recoverAsInvalidArgument => s.takeFreeError .invalidArgument

/-- The state an instruction has written, before its report, and whether it is a taken BEQ, whose own
pc write the advance must know of (40_dispatch.md R156). -/
structure Effect where
  state : State
  branched : Bool
  deriving DecidableEq, Repr

/-- The effect of an instruction that is not a taken BEQ. -/
def fallThrough (s : State) : Effect := { state := s, branched := false }

/-- The pc advance: not applied after a taken BEQ when `BRANCH_LANDS_AFTER_LABEL = false` (R155). -/
def State.advanceAfter (s : State) (branched : Bool) : State :=
  if branched && !s.params.branchLandsAfterLabel then s else s.advance

/-- The end of an instruction begun in `s`: its report and the pc advance, or its failure (R156). -/
def State.finish (s : State) : Except Failure Effect → State
  | .ok e => (e.state.emitReport s.line).advanceAfter e.branched
  | .error f => s.fail f

end Sys2Proof.Machine
end

