-- ==== Sys2Proof/Machine/Flags.lean ====
section
/-! DEFINITION. The flag update rules of the ALU/Flag Unit and the Condition Evaluator. -/

namespace Sys2Proof.Machine

/-- Bit 31 (00_scope.md R10). -/
def signBit (v : Word) : Bool := v.msb

/-- The addition-family rule (41_alu.md R170). The logical operations use it as written (R172). -/
def addFlags (a b r : Word) : Flags :=
  { n := signBit r
    z := decide (r = 0)
    c := decide (r < a)
    v := signBit (~~~(a ^^^ b) &&& (a ^^^ r)) }

/-- The subtraction-family rule (41_alu.md R171). -/
def subFlags (a b r : Word) : Flags :=
  { n := signBit r
    z := decide (r = 0)
    c := decide (b ≤ a)
    v := signBit ((a ^^^ b) &&& (a ^^^ r)) }

/-- The shift rule: the addition-family rule with `b = 0` (42_shift.md R211). -/
def shiftFlags (a r : Word) : Flags := addFlags a 0 r

/-- MVN's rule: N and Z from the result, C and V kept (41_alu.md R175). -/
def mvnFlags (old : Flags) (r : Word) : Flags :=
  { old with n := signBit r, z := decide (r = 0) }

/-- The truth table of the Condition Evaluator (40_dispatch.md R144). -/
def condTest (c : Cond) (f : Flags) : Bool :=
  match c with
  | .eq => f.z
  | .ne => !f.z
  | .gt => !f.z && (f.n == f.v)
  | .ge => f.n == f.v
  | .lt => f.n != f.v
  | .le => f.z || (f.n != f.v)

/-- `cond_holds`: with no suffix, always (40_dispatch.md R145). -/
def condHolds (c : Option Cond) (f : Flags) : Bool :=
  match c with
  | none => true
  | some c => condTest c f

/-- `cond_holds` over any suffix text: none is true, one of the six codes is its test, and any other
value is false (40_dispatch.md R146). The decoder passes only none or one of the six (30_encoding.md
R100), so an instruction reaches `condHolds` with the suffix read already. -/
def condHoldsText (suffix : Option Text) (f : Flags) : Bool :=
  match suffix with
  | none => condHolds none f
  | some t =>
    match readCond t with
    | some c => condHolds (some c) f
    | none => false

/-- The condition gate: a false condition skips the instruction before any operand is looked at
(40_dispatch.md R147). -/
def State.gated (s : State) (c : Option Cond) (body : State → Except Failure Effect) :
    Except Failure Effect :=
  if condHolds c s.flags then body s else .ok (fallThrough s)

/-- One whole instruction: the gate, its body, its events and the pc advance (40_dispatch.md R156). No
instruction faults or is refused. -/
def State.perform (s : State) (c : Option Cond) (body : State → Except Failure Effect) :
    Host.Outcome State Fault Refusal :=
  .next (s.finish (s.gated c body))

end Sys2Proof.Machine
end

