-- ==== Sys2Proof/Machine/Operands.lean ====
section
/-! DEFINITION. The Operand Resolver: register indices, immediates, value operands, register
designators and memory operands (30_encoding.md R104 to R112). -/

namespace Sys2Proof.Machine

/-! ## Numeric text -/

/-- The value of a decimal digit (R107, R109). -/
def decDigit (c : Char) : Option Nat :=
  if '0'.toNat ≤ c.toNat ∧ c.toNat ≤ '9'.toNat then some (c.toNat - '0'.toNat) else none

/-- The value of a hexadecimal digit of either case (R109). -/
def hexDigit (c : Char) : Option Nat :=
  if '0'.toNat ≤ c.toNat ∧ c.toNat ≤ '9'.toNat then some (c.toNat - '0'.toNat)
  else if 'a'.toNat ≤ c.toNat ∧ c.toNat ≤ 'f'.toNat then some (c.toNat - 'a'.toNat + 10)
  else if 'A'.toNat ≤ c.toNat ∧ c.toNat ≤ 'F'.toNat then some (c.toNat - 'A'.toNat + 10)
  else none

/-- Goes on with a number whose leading digits have the value `acc`. -/
def readDigits (base : Nat) (digit : Char → Option Nat) : (acc : Nat) → Text → Option Nat
  | acc, [] => some acc
  | acc, c :: cs =>
    match digit c with
    | some d => readDigits base digit (acc * base + d) cs
    | none => none

/-- The value of a non-empty string of digits, an integer of any size (R107, R109). -/
def readNumber (base : Nat) (digit : Char → Option Nat) (t : Text) : Option Nat :=
  if t = [] then none else readDigits base digit 0 t

/-! ## Register indices (R107) -/

/-- The number of general registers (10_state.md R30). -/
def regCount : Nat := 12

/-- `reg_index(token)`: a malformed index is a `ParseError` of the token, an index of 12 or more is
`OutOfRange` (R107). The spellings `10` and `11` are decimal like any other. -/
def regIndex (t : RegToken) : Except Failure RegIx :=
  match readNumber 10 decDigit t.index with
  | none => .error (.parseError t.text)
  | some i => if h : i < regCount then .ok ⟨i, h⟩ else .error .outOfRange

/-! ## Value operands (R104 to R109) -/

/-- One leading `#` is removed (R108). -/
def dropHash : Text → Text
  | '#' :: t => t
  | t => t

/-- The number an immediate's text spells: hexadecimal after `0x`, else decimal (R108, R109). -/
def immNumber (t : Text) : Option Nat :=
  match dropHash t with
  | '0' :: 'x' :: h => readNumber 16 hexDigit h
  | d => readNumber 10 decDigit d

/-- `imm_value(token)`: the number, which must be at most 0xFFFFFFFF (R109). -/
def immValue (t : Text) : Except Failure Word :=
  match immNumber t with
  | none => .error (.parseError t)
  | some v => if v ≤ 0xFFFFFFFF then .ok (BitVec.ofNat 32 v) else .error (.parseError t)

/-- `resolve(token, state)`: absent or empty is 0, `R...` a register's value, anything else an
immediate (R104 to R108). No line has an empty token (R96). -/
def resolve (s : State) : Option Text → Except Failure Word
  | none => .ok 0
  | some [] => .ok 0
  | some ('R' :: index) => (regIndex ⟨index⟩).map fun i => s.readReg i
  | some t => immValue t

/-! ## Memory operands (R112) -/

/-- The effective address: the value of the base register, not its index (R112; 43_load_store.md R230). -/
def baseAddress (s : State) (t : MemToken) : Except Failure Word :=
  (regIndex t.base).map fun n => s.readReg n

end Sys2Proof.Machine
end

