-- ==== Sys2Proof/Machine/Alu.lean ====
section
/-! DEFINITION. The ALU/Flag Unit's moves, compare, arithmetic and logic (41_alu.md): MOV, MVN, CMP,
ADD, SUB, AND, ORR, EOR. -/

namespace Sys2Proof.Machine

/-- The shape of ADD, SUB, AND, ORR and EOR: resolve `Rd`, `Rn` and `op2` in textual order, compute, then
write the result and, when asked, the flags (R177 to R181; 30_encoding.md R117). -/
def arith (asked : Bool) (rd : RegToken) (rn op2 : Option Text) (compute : Word → Word → Word)
    (newFlags : Word → Word → Word → Flags) (s : State) : Except Failure Effect :=
  (regIndex rd).bind fun d =>
  (resolve s rn).bind fun a =>
  (resolve s op2).bind fun b =>
  .ok (fallThrough ((s.writeReg d (compute a b)).setFlagsIf asked (newFlags a b (compute a b))))

/-- MOV: the source's value; no flag, with or without `S` (R174). -/
def movBody (rd : RegToken) (src : Option Text) (s : State) : Except Failure Effect :=
  (regIndex rd).bind fun d =>
  (resolve s src).bind fun v =>
  .ok (fallThrough (s.writeReg d v))

/-- MVN: the complement; with `S`, N and Z only (R175). -/
def mvnBody (asked : Bool) (rd : RegToken) (src : Option Text) (s : State) : Except Failure Effect :=
  (regIndex rd).bind fun d =>
  (resolve s src).bind fun v =>
  .ok (fallThrough ((s.writeReg d (~~~v)).setFlagsIf asked (mvnFlags s.flags (~~~v))))

/-- CMP: the flags of the difference, always; nothing stored (R176). -/
def cmpBody (op1 op2 : Option Text) (s : State) : Except Failure Effect :=
  (resolve s op1).bind fun a =>
  (resolve s op2).bind fun b =>
  .ok (fallThrough (s.setFlagsIf true (subFlags a b (a - b))))

/-- MOV (R174). -/
def execMov (m : Mods) (rd : RegToken) (src : Option Text) (s : State) :
    Host.Outcome State Fault Refusal :=
  s.perform m.cond (movBody rd src)

/-- MVN (R175). -/
def execMvn (m : Mods) (rd : RegToken) (src : Option Text) (s : State) :
    Host.Outcome State Fault Refusal :=
  s.perform m.cond (mvnBody m.setflags rd src)

/-- CMP (R176). -/
def execCmp (m : Mods) (op1 op2 : Option Text) (s : State) : Host.Outcome State Fault Refusal :=
  s.perform m.cond (cmpBody op1 op2)

/-- ADD (R177). -/
def execAdd (m : Mods) (rd : RegToken) (rn op2 : Option Text) (s : State) :
    Host.Outcome State Fault Refusal :=
  s.perform m.cond (arith m.setflags rd rn op2 (fun a b => a + b) addFlags)

/-- SUB (R178). -/
def execSub (m : Mods) (rd : RegToken) (rn op2 : Option Text) (s : State) :
    Host.Outcome State Fault Refusal :=
  s.perform m.cond (arith m.setflags rd rn op2 (fun a b => a - b) subFlags)

/-- AND (R179). -/
def execAnd (m : Mods) (rd : RegToken) (rn op2 : Option Text) (s : State) :
    Host.Outcome State Fault Refusal :=
  s.perform m.cond (arith m.setflags rd rn op2 (fun a b => a &&& b) addFlags)

/-- ORR (R180). -/
def execOrr (m : Mods) (rd : RegToken) (rn op2 : Option Text) (s : State) :
    Host.Outcome State Fault Refusal :=
  s.perform m.cond (arith m.setflags rd rn op2 (fun a b => a ||| b) addFlags)

/-- EOR (R181). -/
def execEor (m : Mods) (rd : RegToken) (rn op2 : Option Text) (s : State) :
    Host.Outcome State Fault Refusal :=
  s.perform m.cond (arith m.setflags rd rn op2 (fun a b => a ^^^ b) addFlags)

end Sys2Proof.Machine
end

