-- ==== Sys2Proof/Machine/Control.lean ====
section
/-! DEFINITION. The Control Flow Unit (44_control.md): BEQ, NOP; and the lines that run none of the
sixteen operations. -/

namespace Sys2Proof.Machine

/-- `L(name)`: the index a label names, if the table holds it (00_scope.md R11). -/
def State.lookupLabel (s : State) (name : Text) : Option Nat := s.labels.lookup name

/-- BEQ's own Z test and label lookup; a false Z or an unknown label is a no-op (R250). -/
def beqBody (label : Text) (s : State) : Except Failure Effect :=
  match s.flags.z, s.lookupLabel label with
  | true, some target => .ok { state := { s with pc := target }, branched := true }
  | _, _ => .ok (fallThrough s)

/-- BEQ: for the exact mnemonic no condition, else gated by the stripped one first (R250, R251). -/
def execBeq (m : Mods) (label : Text) (s : State) : Host.Outcome State Fault Refusal :=
  s.perform m.cond (beqBody label)

/-- NOP: nothing (R253). -/
def execNop (m : Mods) (s : State) : Host.Outcome State Fault Refusal :=
  s.perform m.cond fun s => .ok (fallThrough s)

/-- The message of an unknown instruction (40_dispatch.md R148, R152). -/
def unknownMessage : Text := "unknown instruction".toList

/-- A line whose base is none of the sixteen: its condition first, then `InvalidArgument` (40_dispatch.md
R147, R148; 30_encoding.md R118). -/
def runUnknown (m : Mods) (s : State) : Host.Outcome State Fault Refusal :=
  s.perform m.cond fun _ => .error (.invalidArgument unknownMessage)

/-- A defensive no-op line: one report and the advance (30_encoding.md R97, R98). -/
def runSkip (s : State) : Host.Outcome State Fault Refusal :=
  .next (s.finish (.ok (fallThrough s)))

end Sys2Proof.Machine
end

