-- ==== Sys2Proof/Machine/LoadStore.lean ====
section
/-! DEFINITION. The Memory Access Unit (43_load_store.md): LDR, STR. -/

namespace Sys2Proof.Machine

/-- LDR's body: both slots in textual order, the address check, then the load (R231). -/
def ldrBody (rd : RegToken) (base : MemToken) (s : State) : Except Failure Effect :=
  (regIndex rd).bind fun d =>
  (baseAddress s base).bind fun ea =>
  (memIndex ea).bind fun k =>
  .ok (fallThrough (s.writeReg d (s.loadWord k)))

/-- STR's body: the data register's value, then the address and its check, then the store (R232). -/
def strBody (rd : RegToken) (base : MemToken) (s : State) : Except Failure Effect :=
  (regIndex rd).bind fun d =>
  (baseAddress s base).bind fun ea =>
  (memIndex ea).bind fun k =>
  .ok (fallThrough (s.storeWord k (s.readReg d)))

/-- LDR; the `S` is ignored (R231). -/
def execLdr (m : Mods) (rd : RegToken) (base : MemToken) (s : State) :
    Host.Outcome State Fault Refusal :=
  s.perform m.cond (ldrBody rd base)

/-- STR; the `S` is ignored (R232). -/
def execStr (m : Mods) (rd : RegToken) (base : MemToken) (s : State) :
    Host.Outcome State Fault Refusal :=
  s.perform m.cond (strBody rd base)

end Sys2Proof.Machine
end

