-- ==== Sys2Proof/Machine/Shift.lean ====
section
/-! DEFINITION. The ALU/Flag Unit's shifts and rotate (42_shift.md): LSL, LSR, ASR, ROR. -/

namespace Sys2Proof.Machine

/-- The greatest legal shift amount (R210). -/
def maxShift : Word := 31

/-- The message of a bad shift amount (R210; 40_dispatch.md R152). -/
def badShiftMessage : Text := "shift amount must be 0-31".toList

/-- The shape of every shift: resolve `Rd`, `Rn` and the amount in that order, check the amount, then
write the result and, when asked, the flags (R210, R211). -/
def shift (asked : Bool) (rd : RegToken) (rn amount : Option Text) (compute : Word → Nat → Word)
    (s : State) : Except Failure Effect :=
  (regIndex rd).bind fun d =>
  (resolve s rn).bind fun a =>
  (resolve s amount).bind fun n =>
  if n ≤ maxShift then
    .ok (fallThrough ((s.writeReg d (compute a n.toNat)).setFlagsIf asked
      (shiftFlags a (compute a n.toNat))))
  else .error (.invalidArgument badShiftMessage)

/-- The rotation: the low `n` bits move to the top; by 0, the identity (R215). -/
def rotateRight (a : Word) (n : Nat) : Word :=
  if n = 0 then a else (a >>> n) ||| (a <<< (32 - n))

/-- LSL (R212). -/
def execLsl (m : Mods) (rd : RegToken) (rn amount : Option Text) (s : State) :
    Host.Outcome State Fault Refusal :=
  s.perform m.cond (shift m.setflags rd rn amount (fun a n => a <<< n))

/-- LSR (R213). -/
def execLsr (m : Mods) (rd : RegToken) (rn amount : Option Text) (s : State) :
    Host.Outcome State Fault Refusal :=
  s.perform m.cond (shift m.setflags rd rn amount (fun a n => a >>> n))

/-- ASR (R214). -/
def execAsr (m : Mods) (rd : RegToken) (rn amount : Option Text) (s : State) :
    Host.Outcome State Fault Refusal :=
  s.perform m.cond (shift m.setflags rd rn amount (fun a n => a.sshiftRight n))

/-- ROR (R215). -/
def execRor (m : Mods) (rd : RegToken) (rn amount : Option Text) (s : State) :
    Host.Outcome State Fault Refusal :=
  s.perform m.cond (shift m.setflags rd rn amount rotateRight)

end Sys2Proof.Machine
end

