-- ==== Sys2Proof/Machine/Dispatch.lean ====
section
/-! DEFINITION. One arm per instruction (40_dispatch.md R148). -/

namespace Sys2Proof.Machine

/-- One instruction, from its condition gate to its report and pc advance (40_dispatch.md R156). -/
def exec (i : Instr) (s : State) : Host.Outcome State Fault Refusal :=
  match i with
  | .mov m rd src => Sys2Proof.Machine.execMov m rd src s
  | .mvn m rd src => Sys2Proof.Machine.execMvn m rd src s
  | .cmp m op1 op2 => Sys2Proof.Machine.execCmp m op1 op2 s
  | .add m rd rn op2 => Sys2Proof.Machine.execAdd m rd rn op2 s
  | .sub m rd rn op2 => Sys2Proof.Machine.execSub m rd rn op2 s
  | .and m rd rn op2 => Sys2Proof.Machine.execAnd m rd rn op2 s
  | .orr m rd rn op2 => Sys2Proof.Machine.execOrr m rd rn op2 s
  | .eor m rd rn op2 => Sys2Proof.Machine.execEor m rd rn op2 s
  | .lsl m rd rn amount => Sys2Proof.Machine.execLsl m rd rn amount s
  | .lsr m rd rn amount => Sys2Proof.Machine.execLsr m rd rn amount s
  | .asr m rd rn amount => Sys2Proof.Machine.execAsr m rd rn amount s
  | .ror m rd rn amount => Sys2Proof.Machine.execRor m rd rn amount s
  | .ldr m rd base => Sys2Proof.Machine.execLdr m rd base s
  | .str m rd base => Sys2Proof.Machine.execStr m rd base s
  | .beq m label => Sys2Proof.Machine.execBeq m label s
  | .nop m => Sys2Proof.Machine.execNop m s

end Sys2Proof.Machine
end

