-- ==== Sys2Proof/Machine/Fetch.lean ====
section
/-! DEFINITION. The part of a step before an instruction runs: the end of the run, the program's
well-formedness, fetch and decode (40_dispatch.md R141 to R143, R156); and a program loaded so that a
given line is the next one. -/

namespace Sys2Proof.Machine

/-- What the step does: all of it already, or one of the sixteen instructions is to run. -/
inductive Fetched where
  | done (o : Host.Outcome State Fault Refusal)
  | run (i : Instr)
  deriving Repr

/-- A fetched line, decoded (40_dispatch.md R143, R156). -/
def dispatchLine (s : State) (line : Text) : Fetched :=
  match decodeLine line with
  | .error why => .done (.refused (.programRefused why))
  | .ok .skip => .done (runSkip s)
  | .ok (.unknown m _) => .done (runUnknown m s)
  | .ok (.instr i) => .run i

/-- The start of a step. An ended run has no step; a program that is not well-formed is refused
(30_encoding.md R125); at `pc ≥ N` the run completes (40_dispatch.md R141); else the line is fetched
(R142). -/
def fetch (s : State) : Fetched :=
  match s.status with
  | .completed => .done (.fault .runCompleted)
  | .aborted token => .done (.fault (.runAborted token))
  | .running =>
    match programProblem s.prog s.labels with
    | some why => .done (.refused (.programRefused why))
    | none =>
      match s.prog[s.pc]? with
      | none => .done (.next { s with status := .completed })
      | some line => dispatchLine s line

/-- A program whose line `pc` is the one given, every line before it a NOP. -/
def programAt (pc : Nat) (line : Text) : List Text :=
  List.replicate pc (opcodeText .nop) ++ [line]

end Sys2Proof.Machine
end

