-- ==== Sys2Proof/Machine/Step.lean ====
section
/-! DEFINITION. One step of the machine (40_dispatch.md R156), and a state whose next step runs a given
line. -/

namespace Sys2Proof.Machine

/-- One step: fetch and decode, then the instruction (40_dispatch.md R140, R156). -/
def step (s : State) : Host.Outcome State Fault Refusal :=
  match fetch s with
  | .done o => o
  | .run i => exec i s

/-- `s` with a program loaded whose line at the pc is the one `w` spells, and running: what the loader
leaves (70_reset_and_hazards.md R302; assumption logs 2 and 9). The label table is that program's,
which has no label. -/
def State.withFetchWord (s : State) (nbits w : Nat) : State :=
  { s with status := .running, prog := programAt s.pc (lineOfWord nbits w), labels := [] }

end Sys2Proof.Machine
end

