-- ==== Sys2Proof/Safety.lean ====
section
/-! DEFINITION. The terms claims are stated in: what an instruction leaves when it completes and when it
fails, which check of an instruction fails first, what a well-formed program is, the invariant. -/

namespace Sys2Proof

/-! ## Well-formed programs, as 30_encoding.md R114 and R125 describe them -/

/-- The classes of an operand slot (R114); STR's data register is a designator too. -/
inductive SlotClass where
  | value | designator | memory | label
  deriving DecidableEq, Repr

/-- The operand signature of each base opcode (R114). -/
def signature : Opcode → List SlotClass
  | .mov | .mvn => [.designator, .value]
  | .cmp => [.value, .value]
  | .add | .sub | .and | .orr | .eor => [.designator, .value, .value]
  | .lsl | .lsr | .asr | .ror => [.designator, .value, .value]
  | .ldr | .str => [.designator, .memory]
  | .beq => [.label]
  | .nop => []

/-- What R125 item 3 asks of a slot and the token in it: a value slot may be absent, every other slot
is filled, a designator begins with `R`, a memory operand is `[R...]` with no bracket inside. -/
def SlotFilled : SlotClass → Option Text → Prop
  | .value, _ => True
  | .designator, t => ∃ r, t = some ('R' :: r)
  | .memory, t => ∃ r, t = some ('[' :: 'R' :: (r ++ [']'])) ∧ '[' ∉ r ∧ ']' ∉ r
  | .label, t => t ≠ none

/-- An opcode's operand tokens are as R125 item 3 asks. -/
def OperandsOk (op : Opcode) (operands : List Text) : Prop :=
  operands.length ≤ (signature op).length ∧
    ∀ (i : Nat) (c : SlotClass), (signature op)[i]? = some c → SlotFilled c operands[i]?

/-- A line is as R125 items 1 and 3 ask. -/
def LineOk (line : Text) : Prop :=
  line ≠ [] ∧ ∀ op m operands, decode line = .op (.known op) m operands → OperandsOk op operands

/-- A program and its label table are well-formed (R125), the table's names unique (10_state.md R44). -/
def ProgramOk (prog : List Text) (labels : LabelTable) : Prop :=
  prog ≠ [] ∧ (∀ line ∈ prog, LineOk line) ∧ (∀ e ∈ labels, e.2 ≤ prog.length) ∧
    (labels.map Prod.fst).Nodup

namespace Machine

/-! ## What an instruction leaves -/

/-- The state after an instruction begun in `s` that leaves these registers, flags and memory and is no
taken BEQ: one report of them and `pc + 1`, all else as in `s` (40_dispatch.md R150, R155). -/
def State.retired (s : State) (x : Vector Word 12) (flags : Flags) (mem : Memory) : State :=
  { s with x := x, flags := flags, mem := mem, pc := s.pc + 1,
           trace := s.trace ++ [.report s.line x flags mem] }

/-- The state after a recoverable error: the error event, the report of the unchanged registers, flags
and memory, `pc + 1`, all else as in `s` (40_dispatch.md R152, R153). -/
def State.errored (s : State) (kind : ErrorKind) (message : Text) : State :=
  { s with pc := s.pc + 1,
           trace := s.trace ++ [.error kind message s.line, .report s.line s.x s.flags s.mem] }

/-! ## Which check fails first (60_exceptions.md R275) -/

/-- The failure of a check, if it fails. -/
def failureOf {α : Type} : Except Failure α → Option Failure
  | .ok _ => none
  | .error f => some f

/-- The failures of an instruction's slots, in textual order (30_encoding.md R117). -/
def Instr.slotFailures (s : State) : Instr → List (Option Failure)
  | .mov _ rd v => [failureOf (regIndex rd), failureOf (resolve s v)]
  | .mvn _ rd v => [failureOf (regIndex rd), failureOf (resolve s v)]
  | .cmp _ a b => [failureOf (resolve s a), failureOf (resolve s b)]
  | .add _ rd a b => [failureOf (regIndex rd), failureOf (resolve s a), failureOf (resolve s b)]
  | .sub _ rd a b => [failureOf (regIndex rd), failureOf (resolve s a), failureOf (resolve s b)]
  | .and _ rd a b => [failureOf (regIndex rd), failureOf (resolve s a), failureOf (resolve s b)]
  | .orr _ rd a b => [failureOf (regIndex rd), failureOf (resolve s a), failureOf (resolve s b)]
  | .eor _ rd a b => [failureOf (regIndex rd), failureOf (resolve s a), failureOf (resolve s b)]
  | .lsl _ rd a b => [failureOf (regIndex rd), failureOf (resolve s a), failureOf (resolve s b)]
  | .lsr _ rd a b => [failureOf (regIndex rd), failureOf (resolve s a), failureOf (resolve s b)]
  | .asr _ rd a b => [failureOf (regIndex rd), failureOf (resolve s a), failureOf (resolve s b)]
  | .ror _ rd a b => [failureOf (regIndex rd), failureOf (resolve s a), failureOf (resolve s b)]
  | .ldr _ rd base => [failureOf (regIndex rd), failureOf (baseAddress s base)]
  | .str _ rd base => [failureOf (regIndex rd), failureOf (baseAddress s base)]
  | .beq _ _ => []
  | .nop _ => []

/-- The shift-amount check on a resolved amount (42_shift.md R210). -/
def amountFailure (s : State) (amount : Option Text) : Option Failure :=
  match resolve s amount with
  | .ok n => if n.toNat ≤ 31 then none else some (.invalidArgument badShiftMessage)
  | .error _ => none

/-- The address check on a base register's value (20_memory.md R63). -/
def addressFailure (s : State) (base : MemToken) : Option Failure :=
  match baseAddress s base with
  | .ok ea =>
    if 0x100 ≤ ea.toNat ∧ ea.toNat ≤ 0x110 ∧ ea.toNat % 4 = 0 then none else some .outOfRange
  | .error _ => none

/-- The failure of an instruction's value check, which comes after its slots (30_encoding.md R117). -/
def Instr.valueFailure (s : State) : Instr → Option Failure
  | .lsl _ _ _ amount => amountFailure s amount
  | .lsr _ _ _ amount => amountFailure s amount
  | .asr _ _ _ amount => amountFailure s amount
  | .ror _ _ _ amount => amountFailure s amount
  | .ldr _ _ base => addressFailure s base
  | .str _ _ base => addressFailure s base
  | .mov _ _ _ => none
  | .mvn _ _ _ => none
  | .cmp _ _ _ => none
  | .add _ _ _ _ => none
  | .sub _ _ _ _ => none
  | .and _ _ _ _ => none
  | .orr _ _ _ _ => none
  | .eor _ _ _ _ => none
  | .beq _ _ => none
  | .nop _ => none

/-- The first check that fails once the condition holds: the slots in textual order, then the value
check (60_exceptions.md R275 items 3 and 4). -/
def Instr.failure (s : State) (i : Instr) : Option Failure :=
  ((Instr.slotFailures s i).findSome? id).or (Instr.valueFailure s i)

/-! ## What instructions may write (10_state.md R32, R40) -/

/-- The destination register's token, for the instructions that write a register (R32). -/
def Instr.destination : Instr → Option RegToken
  | .mov _ rd _ => some rd
  | .mvn _ rd _ => some rd
  | .cmp _ _ _ => none
  | .add _ rd _ _ => some rd
  | .sub _ rd _ _ => some rd
  | .and _ rd _ _ => some rd
  | .orr _ rd _ _ => some rd
  | .eor _ rd _ _ => some rd
  | .lsl _ rd _ _ => some rd
  | .lsr _ rd _ _ => some rd
  | .asr _ rd _ _ => some rd
  | .ror _ rd _ _ => some rd
  | .ldr _ rd _ => some rd
  | .str _ _ _ => none
  | .beq _ _ => none
  | .nop _ => none

/-- The opcodes whose `S` suffix asks for a flag update (R40). -/
def flagsOnRequest : Opcode → Bool
  | .mvn | .add | .sub | .and | .orr | .eor | .lsl | .lsr | .asr | .ror => true
  | .mov | .cmp | .ldr | .str | .beq | .nop => false

/-! ## States and runs -/

/-- The invariant: the memory is canonical; the pc is at most `N + 1` (10_state.md R36); a completed run
is at the end of the sequence (40_dispatch.md R141), an aborted one before it (R154). -/
def Inv (s : State) : Prop :=
  Memory.wf s.mem = true ∧ s.pc ≤ s.prog.length + 1 ∧
    (s.status = .completed → s.prog.length ≤ s.pc) ∧
    (∀ token, s.status = .aborted token → s.pc < s.prog.length)

/-- The state without what a program can neither read nor act on: the trace, and the model's count of
free message texts. -/
def State.withoutTrace (s : State) : State := { s with trace := [], freeCount := 0 }

/-- Two outcomes that agree but for the trace and the count of free message texts. -/
def SameOutcome : Host.Outcome State Fault Refusal → Host.Outcome State Fault Refusal → Prop
  | .next t, .next t' => t.withoutTrace = t'.withoutTrace
  | .fault r, .fault r' => r = r'
  | .refused r, .refused r' => r = r'
  | _, _ => False

/-- An event is a report (40_dispatch.md R150). -/
def Event.isReport : Event → Bool
  | .report _ _ _ _ => true
  | .error _ _ _ => false

end Machine

end Sys2Proof
end

