-- ==== Sys2Proof/Certificates/Slice0/Obligations.lean ====
section
/-! DEFINITION. The statements for the provers. Hypotheses are on the state and the operands alone; each
result is a whole state (`State.retired`, `State.errored`), so it says the frame too. -/

open Sys2Proof Sys2Proof.Machine

/-! ## Reset and the invariant -/

/-- 70_reset_and_hazards.md R300, with 10_state.md R33, R38, R42 and 20_memory.md R65. The clause over every
address goes beyond the five words of the window: that `Memory.read` answers 0 outside it is the model's
choice (assumption log 4). -/
def Obligations.ResetStateIsAllZero : Prop :=
  (∀ i : RegIx, State.reset.x[i] = 0) ∧
  State.reset.flags = { n := false, z := false, c := false, v := false } ∧
  (∀ k < 5, State.reset.loadWord k = 0) ∧ (∀ a, Memory.read State.reset.mem a = 0) ∧
  State.reset.pc = 0 ∧ State.reset.status = .running ∧ State.reset.trace = []

/-- The reset state has the invariant every step keeps. -/
def Obligations.ResetHasInvariant : Prop := Inv State.reset

/-- Every step keeps the invariant: the memory's canonical form, `pc ≤ N + 1` (10_state.md R36), and
where the pc stands when the run has ended (40_dispatch.md R141, R154). -/
def Obligations.StepKeepsInvariant : Prop :=
  ∀ s t : State, Inv s → step s = .next t → Inv t

/-- 00_scope.md R9: the program, the label table and the parameters never change. -/
def Obligations.StepKeepsRunInputs : Prop :=
  ∀ s t : State, step s = .next t →
    t.prog = s.prog ∧ t.labels = s.labels ∧ t.params = s.params

/-! ## Decoding and encoding -/

/-- The decoder reads back every instruction its canonical line spells, every operand at every value a
token can have (30_encoding.md R122, R124). -/
def Obligations.DecodeReadsBackEncode : Prop :=
  ∀ i : Instr, i.wf = true → decodeLine (encode i) = .ok (.instr i)

/-- The decoder makes only well-formed instructions, whatever the line (30_encoding.md R96, R125). -/
def Obligations.DecodedInstructionIsWellFormed : Prop :=
  ∀ (line : Text) (i : Instr), decodeLine line = .ok (.instr i) → i.wf = true

/-- Every row of the mnemonic table of 30_encoding.md R103. -/
def Obligations.MnemonicTableDecodes : Prop :=
  splitMnemonic "MOV".toList = (.known .mov, ⟨false, none⟩) ∧
  splitMnemonic "MOVS".toList = (.known .mov, ⟨true, none⟩) ∧
  splitMnemonic "MOVEQ".toList = (.known .mov, ⟨false, some .eq⟩) ∧
  splitMnemonic "ADDSGT".toList = (.known .add, ⟨true, some .gt⟩) ∧
  splitMnemonic "ADDGTS".toList = (.unknown "ADDGT".toList, ⟨true, none⟩) ∧
  splitMnemonic "CMPS".toList = (.known .cmp, ⟨true, none⟩) ∧
  splitMnemonic "LSLLE".toList = (.known .lsl, ⟨false, some .le⟩) ∧
  splitMnemonic "NOPEQ".toList = (.known .nop, ⟨false, some .eq⟩) ∧
  splitMnemonic "BEQ".toList = (.known .beq, ⟨false, none⟩) ∧
  splitMnemonic "BEQS".toList = (.known .beq, ⟨true, none⟩) ∧
  splitMnemonic "BEQEQ".toList = (.known .beq, ⟨false, some .eq⟩) ∧
  splitMnemonic "BEQNE".toList = (.known .beq, ⟨false, some .ne⟩) ∧
  splitMnemonic "BNE".toList = (.unknown "B".toList, ⟨false, some .ne⟩) ∧
  splitMnemonic "B".toList = (.unknown "B".toList, ⟨false, none⟩) ∧
  splitMnemonic "MOVAL".toList = (.unknown "MOVAL".toList, ⟨false, none⟩) ∧
  splitMnemonic "MOVCS".toList = (.unknown "MOVC".toList, ⟨true, none⟩) ∧
  splitMnemonic "MOVSS".toList = (.unknown "MOVS".toList, ⟨true, none⟩) ∧
  splitMnemonic "MOVEQNE".toList = (.unknown "MOVEQ".toList, ⟨false, some .ne⟩) ∧
  splitMnemonic "EQ".toList = (.unknown [], ⟨false, some .eq⟩) ∧
  splitMnemonic "S".toList = (.unknown [], ⟨true, none⟩) ∧
  splitMnemonic "add".toList = (.unknown "add".toList, ⟨false, none⟩) ∧
  splitMnemonic "MOVeq".toList = (.unknown "MOVeq".toList, ⟨false, none⟩)

/-- Lines written out from 30_encoding.md R91, R95 and R114 and 95_test_vectors.md §2.1, one at least
of each format, read as the instructions they spell. -/
def Obligations.SampleLinesDecode : Prop :=
  decodeLine "MVNS R1, #0".toList = .ok (.instr (.mvn ⟨true, none⟩ ⟨['1']⟩ (some ['#', '0']))) ∧
  decodeLine "CMP R0".toList = .ok (.instr (.cmp ⟨false, none⟩ (some ['R', '0']) none)) ∧
  decodeLine "ADD\tR0 , R1,,#2".toList =
    .ok (.instr (.add ⟨false, none⟩ ⟨['0']⟩ (some ['R', '1']) (some ['#', '2']))) ∧
  decodeLine "LSLSLE R3 R4 7".toList =
    .ok (.instr (.lsl ⟨true, some .le⟩ ⟨['3']⟩ (some ['R', '4']) (some ['7']))) ∧
  decodeLine "STRGE R2,[R10]".toList = .ok (.instr (.str ⟨false, some .ge⟩ ⟨['2']⟩ ⟨⟨['1', '0']⟩⟩)) ∧
  decodeLine "BEQNE done".toList =
    .ok (.instr (.beq ⟨false, some .ne⟩ ['d', 'o', 'n', 'e'])) ∧
  decodeLine "NOP".toList = .ok (.instr (.nop ⟨false, none⟩))

/-- 30_encoding.md R95 and R96. The three clauses fix the tokens of every line: a non-empty run of
characters that are neither commas nor separators is one token, and a line cut at a comma or separator has
the tokens of its two sides. -/
def Obligations.TokensAreMaximalRuns : Prop :=
  let cut (c : Char) : Prop := c = ',' ∨ c.toNat ∈ [0x20, 0x09, 0x0A, 0x0B, 0x0C, 0x0D]
  tokenize [] = [] ∧
  (∀ t : Text, t ≠ [] → (∀ c ∈ t, ¬ cut c) → tokenize t = [t]) ∧
  (∀ (l r : Text) (c : Char), cut c → tokenize (l ++ c :: r) = tokenize l ++ tokenize r)

/-! ## The Operand Resolver -/

/-- 30_encoding.md R107: a non-empty string of decimal digits is an index, of any size and with any
leading zeros; below 12 it names a register, from 12 on it is `OutOfRange`; any other text is a
`ParseError` of the token. A token that begins with `r` is no register: it is read as an immediate, which
fails. -/
def Obligations.RegisterIndexParse : Prop :=
  ∀ r : Text,
    let digits : Prop := r ≠ [] ∧ ∀ c ∈ r, '0'.toNat ≤ c.toNat ∧ c.toNat ≤ '9'.toNat
    let i : Nat := r.foldl (fun n c => 10 * n + (c.toNat - '0'.toNat)) 0
    (digits → ∀ h : i < 12, regIndex ⟨r⟩ = .ok ⟨i, h⟩) ∧
    (digits → 12 ≤ i → regIndex ⟨r⟩ = .error .outOfRange) ∧
    (¬ digits → regIndex ⟨r⟩ = .error (.parseError ('R' :: r))) ∧
    ∀ s : State, resolve s (some ('r' :: r)) = .error (.parseError ('r' :: r))

/-- 30_encoding.md R109, the text after one optional `#` (R108): decimal digits, or `0x` and hexadecimal
digits of either case, of value at most 0xFFFFFFFF; any other text is a `ParseError` of the token. -/
def Obligations.ImmediateParse : Prop :=
  ∀ token : Text,
    let t : Text := if token.head? = some '#' then token.tail else token
    let dec (c : Char) : Prop := '0'.toNat ≤ c.toNat ∧ c.toNat ≤ '9'.toNat
    let lower (c : Char) : Prop := 'a'.toNat ≤ c.toNat ∧ c.toNat ≤ 'f'.toNat
    let upper (c : Char) : Prop := 'A'.toNat ≤ c.toNat ∧ c.toNat ≤ 'F'.toNat
    let digit (c : Char) : Nat :=
      if c.toNat ≤ '9'.toNat then c.toNat - '0'.toNat
      else if c.toNat ≤ 'F'.toNat then c.toNat - 'A'.toNat + 10 else c.toNat - 'a'.toNat + 10
    let value (base : Nat) (u : Text) : Nat := u.foldl (fun n c => base * n + digit c) 0
    (∀ h : Text, t = '0' :: 'x' :: h →
      (h ≠ [] ∧ (∀ c ∈ h, dec c ∨ lower c ∨ upper c) ∧ value 16 h ≤ 0xFFFFFFFF →
        immValue token = .ok (BitVec.ofNat 32 (value 16 h))) ∧
      (¬ (h ≠ [] ∧ (∀ c ∈ h, dec c ∨ lower c ∨ upper c) ∧ value 16 h ≤ 0xFFFFFFFF) →
        immValue token = .error (.parseError token))) ∧
    ((¬ ∃ h : Text, t = '0' :: 'x' :: h) →
      (t ≠ [] ∧ (∀ c ∈ t, dec c) ∧ value 10 t ≤ 0xFFFFFFFF →
        immValue token = .ok (BitVec.ofNat 32 (value 10 t))) ∧
      (¬ (t ≠ [] ∧ (∀ c ∈ t, dec c) ∧ value 10 t ≤ 0xFFFFFFFF) →
        immValue token = .error (.parseError token)))

/-- 30_encoding.md R105, R106 and the order of R104: an absent or empty operand is 0, a token that begins with `R`
is a register's current value or its index's failure, any other token is an immediate. -/
def Obligations.ValueOperandResolution : Prop :=
  ∀ s : State,
    resolve s none = .ok 0 ∧ resolve s (some []) = .ok 0 ∧
    (∀ (r : Text) (i : RegIx), regIndex ⟨r⟩ = .ok i → resolve s (some ('R' :: r)) = .ok s.x[i]) ∧
    (∀ (r : Text) (f : Failure), regIndex ⟨r⟩ = .error f → resolve s (some ('R' :: r)) = .error f) ∧
    (∀ t : Text, t ≠ [] → t.head? ≠ some 'R' → resolve s (some t) = immValue t)

/-- 30_encoding.md R110: every u32 value is expressible as an immediate token. -/
def Obligations.EveryWordIsAnImmediate : Prop :=
  ∀ (s : State) (v : Word), ∃ t : Text, tokenOk t = true ∧ t.head? ≠ some 'R' ∧
    resolve s (some t) = .ok v

/-! ## Conditions and flags -/

/-- The truth table of 40_dispatch.md R144, and R145; the C flag is read by no condition. -/
def Obligations.ConditionTruthTable : Prop :=
  ∀ f : Flags,
    condHolds none f = true ∧
    (condHolds (some .eq) f = true ↔ f.z = true) ∧
    (condHolds (some .ne) f = true ↔ f.z = false) ∧
    (condHolds (some .gt) f = true ↔ f.z = false ∧ f.n = f.v) ∧
    (condHolds (some .ge) f = true ↔ f.n = f.v) ∧
    (condHolds (some .lt) f = true ↔ f.n ≠ f.v) ∧
    (condHolds (some .le) f = true ↔ f.z = true ∨ f.n ≠ f.v) ∧
    ∀ (c : Option Cond) (b : Bool), condHolds c { f with c := b } = condHolds c f

/-- 40_dispatch.md R146: a suffix that is none of the six codes makes the Condition Evaluator return false;
and the decoder passes only one of the six codes or none, on which the evaluator over texts is the one the
gate asks, so that row is not reached from an instruction line. -/
def Obligations.OtherSuffixNeverHolds : Prop :=
  let codes : List Text := [['E', 'Q'], ['N', 'E'], ['G', 'T'], ['G', 'E'], ['L', 'T'], ['L', 'E']]
  (∀ (t : Text) (f : Flags), t ∉ codes → condHoldsText (some t) f = false) ∧
  (∀ (line : Text) (b : Base) (m : Mods) (operands : List Text) (f : Flags),
    decode line = .op b m operands →
    (∀ t, m.cond.map condText = some t → t ∈ codes) ∧
    condHoldsText (m.cond.map condText) f = condHolds m.cond f)

/-- 40_dispatch.md R147: a false condition skips the instruction, known or unknown. Nothing changes but
the pc, and the state is reported once. -/
def Obligations.FalseConditionSkips : Prop :=
  (∀ (i : Instr) (s : State), condHolds i.mods.cond s.flags = false →
    exec i s = .next (s.retired s.x s.flags s.mem)) ∧
  (∀ (m : Mods) (s : State), condHolds m.cond s.flags = false →
    runUnknown m s = .next (s.retired s.x s.flags s.mem))

/-- 41_alu.md R170 and R171, and 42_shift.md R211: the three flag rules, bit by bit. Then the meaning of C, V
and Z for a sum and a difference, as the integer laws of 41_alu.md R183. -/
def Obligations.FlagUpdateRules : Prop :=
  (∀ a b : Word,
    ((addFlags a b (a + b)).c = true ↔ 2 ^ 32 ≤ a.toNat + b.toNat) ∧
    ((addFlags a b (a + b)).v = true ↔
      a.toInt + b.toInt < -2 ^ 31 ∨ 2 ^ 31 - 1 < a.toInt + b.toInt) ∧
    ((subFlags a b (a - b)).c = true ↔ b.toNat ≤ a.toNat) ∧
    ((subFlags a b (a - b)).v = true ↔
      a.toInt - b.toInt < -2 ^ 31 ∨ 2 ^ 31 - 1 < a.toInt - b.toInt) ∧
    ((subFlags a b (a - b)).z = true ↔ a = b)) ∧
  ∀ a b r : Word,
    addFlags a b r =
      { n := r.getLsbD 31, z := decide (r = 0), c := decide (r.toNat < a.toNat),
        v := (~~~(a ^^^ b) &&& (a ^^^ r)).getLsbD 31 } ∧
    subFlags a b r =
      { n := r.getLsbD 31, z := decide (r = 0), c := decide (b.toNat ≤ a.toNat),
        v := ((a ^^^ b) &&& (a ^^^ r)).getLsbD 31 } ∧
    shiftFlags a r =
      { n := r.getLsbD 31, z := decide (r = 0), c := decide (r.toNat < a.toNat),
        v := !a.getLsbD 31 && r.getLsbD 31 }

/-! ## Moves, compare, arithmetic and logic -/

/-- MOV completes and writes its source's value to Rd; no flag changes, with or without `S` (41_alu.md
R174). -/
def Obligations.MovCompletes : Prop :=
  ∀ (m : Mods) (rd : RegToken) (src : Option Text) (s : State) (d : RegIx) (v : Word),
    condHolds m.cond s.flags = true → regIndex rd = .ok d → resolve s src = .ok v →
    exec (.mov m rd src) s = .next (s.retired (s.x.set d v) s.flags s.mem)

/-- MVN completes and writes the complement; with `S`, N and Z are the result's and C and V stay (41_alu.md
R175). -/
def Obligations.MvnCompletes : Prop :=
  ∀ (m : Mods) (rd : RegToken) (src : Option Text) (s : State) (d : RegIx) (v : Word),
    condHolds m.cond s.flags = true → regIndex rd = .ok d → resolve s src = .ok v →
    exec (.mvn m rd src) s = .next (s.retired (s.x.set d (~~~v))
      (if m.setflags then
        { n := !v.getLsbD 31, z := decide (v = 0xFFFFFFFF), c := s.flags.c, v := s.flags.v }
       else s.flags) s.mem)

/-- CMP completes and writes only the flags, always; C, V and Z are the integer laws of 41_alu.md R183
(R176). -/
def Obligations.CmpCompletes : Prop :=
  ∀ (m : Mods) (op1 op2 : Option Text) (s : State) (a b : Word),
    condHolds m.cond s.flags = true → resolve s op1 = .ok a → resolve s op2 = .ok b →
    exec (.cmp m op1 op2) s = .next (s.retired s.x
      { n := (a - b).getLsbD 31, z := decide (a = b), c := decide (b.toNat ≤ a.toNat),
        v := decide (a.toInt - b.toInt < -2 ^ 31 ∨ 2 ^ 31 ≤ a.toInt - b.toInt) } s.mem)

/-- ADD completes and writes the sum modulo 2^32; with `S`, C is the carry out and V the signed overflow,
as integer laws (41_alu.md R177, R183). -/
def Obligations.AddCompletes : Prop :=
  ∀ (m : Mods) (rd : RegToken) (rn op2 : Option Text) (s : State) (d : RegIx) (a b : Word),
    condHolds m.cond s.flags = true → regIndex rd = .ok d →
    resolve s rn = .ok a → resolve s op2 = .ok b →
    exec (.add m rd rn op2) s = .next (s.retired (s.x.set d (a + b))
      (if m.setflags then
        { n := (a + b).getLsbD 31, z := decide (a + b = 0),
          c := decide (2 ^ 32 ≤ a.toNat + b.toNat),
          v := decide (a.toInt + b.toInt < -2 ^ 31 ∨ 2 ^ 31 ≤ a.toInt + b.toInt) }
       else s.flags) s.mem)

/-- SUB completes and writes the difference modulo 2^32; with `S`, C means no borrow and V is the signed
overflow, as integer laws (41_alu.md R178, R183). -/
def Obligations.SubCompletes : Prop :=
  ∀ (m : Mods) (rd : RegToken) (rn op2 : Option Text) (s : State) (d : RegIx) (a b : Word),
    condHolds m.cond s.flags = true → regIndex rd = .ok d →
    resolve s rn = .ok a → resolve s op2 = .ok b →
    exec (.sub m rd rn op2) s = .next (s.retired (s.x.set d (a - b))
      (if m.setflags then
        { n := (a - b).getLsbD 31, z := decide (a = b), c := decide (b.toNat ≤ a.toNat),
          v := decide (a.toInt - b.toInt < -2 ^ 31 ∨ 2 ^ 31 ≤ a.toInt - b.toInt) }
       else s.flags) s.mem)

/-- AND, ORR and EOR complete and write the bitwise result; with `S`, the flags are the consequences of
the addition rule that 41_alu.md R172 gives (R179, R180, R181). -/
def Obligations.LogicalOperationsComplete : Prop :=
  ∀ (m : Mods) (rd : RegToken) (rn op2 : Option Text) (s : State) (d : RegIx) (a b : Word),
    condHolds m.cond s.flags = true → regIndex rd = .ok d →
    resolve s rn = .ok a → resolve s op2 = .ok b →
    exec (.and m rd rn op2) s = .next (s.retired (s.x.set d (a &&& b))
      (if m.setflags then
        { n := (a &&& b).getLsbD 31, z := decide (a &&& b = 0), c := decide (a &&& b ≠ a),
          v := false }
       else s.flags) s.mem) ∧
    exec (.orr m rd rn op2) s = .next (s.retired (s.x.set d (a ||| b))
      (if m.setflags then
        { n := (a ||| b).getLsbD 31, z := decide (a ||| b = 0), c := false, v := false }
       else s.flags) s.mem) ∧
    exec (.eor m rd rn op2) s = .next (s.retired (s.x.set d (a ^^^ b))
      (if m.setflags then
        { n := (a ^^^ b).getLsbD 31, z := decide (a = b),
          c := decide ((a ^^^ b).toNat < a.toNat), v := a.getLsbD 31 && b.getLsbD 31 }
       else s.flags) s.mem)

/-! ## Shifts and rotate -/

/-- LSL completes for an amount of 0 to 31 and writes `a * 2^n mod 2^32` (42_shift.md R212, R216); with `S`,
the flags of R211. -/
def Obligations.LslCompletes : Prop :=
  ∀ (m : Mods) (rd : RegToken) (rn amount : Option Text) (s : State) (d : RegIx) (a n : Word),
    condHolds m.cond s.flags = true → regIndex rd = .ok d →
    resolve s rn = .ok a → resolve s amount = .ok n → n.toNat ≤ 31 →
    ∃ r : Word, r.toNat = a.toNat * 2 ^ n.toNat % 2 ^ 32 ∧
      exec (.lsl m rd rn amount) s = .next (s.retired (s.x.set d r)
        (if m.setflags then
          { n := r.getLsbD 31, z := decide (r = 0), c := decide (r.toNat < a.toNat),
            v := !a.getLsbD 31 && r.getLsbD 31 }
         else s.flags) s.mem)

/-- LSR completes for an amount of 0 to 31 and writes `floor(a / 2^n)`; with `S`, V is 0 (42_shift.md R213,
R216). -/
def Obligations.LsrCompletes : Prop :=
  ∀ (m : Mods) (rd : RegToken) (rn amount : Option Text) (s : State) (d : RegIx) (a n : Word),
    condHolds m.cond s.flags = true → regIndex rd = .ok d →
    resolve s rn = .ok a → resolve s amount = .ok n → n.toNat ≤ 31 →
    ∃ r : Word, r.toNat = a.toNat / 2 ^ n.toNat ∧
      exec (.lsr m rd rn amount) s = .next (s.retired (s.x.set d r)
        (if m.setflags then
          { n := decide (n = 0) && a.getLsbD 31, z := decide (r = 0),
            c := decide (r.toNat < a.toNat), v := false }
         else s.flags) s.mem)

/-- ASR completes for an amount of 0 to 31 and writes the floor of the signed value by `2^n`; with `S`, V
is 0 (42_shift.md R214, R216). -/
def Obligations.AsrCompletes : Prop :=
  ∀ (m : Mods) (rd : RegToken) (rn amount : Option Text) (s : State) (d : RegIx) (a n : Word),
    condHolds m.cond s.flags = true → regIndex rd = .ok d →
    resolve s rn = .ok a → resolve s amount = .ok n → n.toNat ≤ 31 →
    ∃ r : Word, r.toInt = Int.fdiv a.toInt (2 ^ n.toNat) ∧
      exec (.asr m rd rn amount) s = .next (s.retired (s.x.set d r)
        (if m.setflags then
          { n := a.getLsbD 31, z := decide (r = 0), c := decide (r.toNat < a.toNat), v := false }
         else s.flags) s.mem)

/-- ROR completes for an amount of 0 to 31: bit `j` of the result is bit `(j + n) mod 32` of the value; by
0 it is the identity, the spec's own decision D13 (42_shift.md R215); with `S`, the flags of R211. -/
def Obligations.RorCompletes : Prop :=
  ∀ (m : Mods) (rd : RegToken) (rn amount : Option Text) (s : State) (d : RegIx) (a n : Word),
    condHolds m.cond s.flags = true → regIndex rd = .ok d →
    resolve s rn = .ok a → resolve s amount = .ok n → n.toNat ≤ 31 →
    ∃ r : Word, (∀ j < 32, r.getLsbD j = a.getLsbD ((j + n.toNat) % 32)) ∧
      exec (.ror m rd rn amount) s = .next (s.retired (s.x.set d r)
        (if m.setflags then
          { n := r.getLsbD 31, z := decide (r = 0), c := decide (r.toNat < a.toNat),
            v := !a.getLsbD 31 && r.getLsbD 31 }
         else s.flags) s.mem)

/-- 42_shift.md R210: an amount above 31 raises `InvalidArgument`, writes nothing, and the run goes on. -/
def Obligations.BadShiftAmountRaises : Prop :=
  ∀ (m : Mods) (rd : RegToken) (rn amount : Option Text) (s : State) (d : RegIx) (a n : Word),
    condHolds m.cond s.flags = true → regIndex rd = .ok d →
    resolve s rn = .ok a → resolve s amount = .ok n → 31 < n.toNat →
    ∀ i ∈ [Instr.lsl m rd rn amount, .lsr m rd rn amount, .asr m rd rn amount, .ror m rd rn amount],
      exec i s = .next (s.errored .invalidArgument "shift amount must be 0-31".toList)

/-- 42_shift.md R216: ROR by `n` and then by `32 - n` gives back the value, for an `n` of 1 to 31; a
shift by 0 is the identity for all four. -/
def Obligations.RotationsInvert : Prop :=
  ∀ a : Word,
    (∀ n, 1 ≤ n → n ≤ 31 → rotateRight (rotateRight a n) (32 - n) = a) ∧
    rotateRight a 0 = a

/-! ## Loads and stores -/

/-- 20_memory.md R64, the whole table: the five valid addresses and their words; every other address is
`OutOfRange` (R62, R63). -/
def Obligations.AddressTable : Prop :=
  (∀ (ea : Word) (k : Nat), memIndex ea = .ok k ↔
    (ea.toNat, k) ∈ [(0x100, 0), (0x104, 1), (0x108, 2), (0x10C, 3), (0x110, 4)]) ∧
  (∀ ea : Word, ea.toNat ∉ [0x100, 0x104, 0x108, 0x10C, 0x110] →
    memIndex ea = .error .outOfRange)

/-- LDR completes on a valid address and writes the addressed word to Rd; no flag and no other register
changes (43_load_store.md R231). -/
def Obligations.LdrCompletes : Prop :=
  ∀ (m : Mods) (rd : RegToken) (base : MemToken) (s : State) (d n : RegIx),
    condHolds m.cond s.flags = true → regIndex rd = .ok d → regIndex base.base = .ok n →
    0x100 ≤ s.x[n].toNat → s.x[n].toNat ≤ 0x110 → s.x[n].toNat % 4 = 0 →
    exec (.ldr m rd base) s = .next
      (s.retired (s.x.set d (Memory.read s.mem s.x[n].toNat)) s.flags s.mem) ∧
    Memory.read s.mem s.x[n].toNat = s.loadWord ((s.x[n].toNat - 0x100) / 4)

/-- STR completes on a valid address: the addressed word becomes the data register's value, every other
word reads as before, no register and no flag changes (43_load_store.md R232). The memory is canonical, an
invariant of every step. -/
def Obligations.StrCompletes : Prop :=
  ∀ (m : Mods) (rd : RegToken) (base : MemToken) (s : State) (d n : RegIx),
    condHolds m.cond s.flags = true → regIndex rd = .ok d → regIndex base.base = .ok n →
    0x100 ≤ s.x[n].toNat → s.x[n].toNat ≤ 0x110 → s.x[n].toNat % 4 = 0 →
    Memory.wf s.mem = true →
    ∃ mem : Memory, exec (.str m rd base) s = .next (s.retired s.x s.flags mem) ∧
      Memory.wf mem = true ∧ Memory.read mem s.x[n].toNat = s.x[d] ∧
      ∀ a, a ≠ s.x[n].toNat → Memory.read mem a = Memory.read s.mem a

/-- An address below 0x100, above 0x110 or not a multiple of 4 makes LDR and STR raise `OutOfRange`: no
register, flag or word changes (20_memory.md R63, R69). The message is any text. -/
def Obligations.InvalidAddressRaises : Prop :=
  ∀ (m : Mods) (rd : RegToken) (base : MemToken) (s : State) (d n : RegIx),
    condHolds m.cond s.flags = true → regIndex rd = .ok d → regIndex base.base = .ok n →
    (s.x[n].toNat < 0x100 ∨ 0x110 < s.x[n].toNat ∨ s.x[n].toNat % 4 ≠ 0) →
    ∀ i ∈ [Instr.ldr m rd base, .str m rd base], ∃ message : Text,
      exec i s = .next
        { s.errored .outOfRange message with freeCount := s.freeCount + 1 }

/-- 43_load_store.md R234: an LDR from the address of an STR, the word unchanged in between, gives back the
value stored. -/
def Obligations.StoreThenLoadGivesBack : Prop :=
  ∀ (m m' : Mods) (rd re : RegToken) (base : MemToken) (s t u : State) (d e n : RegIx),
    Memory.wf s.mem = true →
    condHolds m.cond s.flags = true → regIndex rd = .ok d → regIndex base.base = .ok n →
    0x100 ≤ s.x[n].toNat → s.x[n].toNat ≤ 0x110 → s.x[n].toNat % 4 = 0 →
    exec (.str m rd base) s = .next t →
    u.x[n] = s.x[n] → Memory.read u.mem s.x[n].toNat = Memory.read t.mem s.x[n].toNat →
    condHolds m'.cond u.flags = true → regIndex re = .ok e →
    ∃ v : State, exec (.ldr m' re base) u = .next v ∧ v.x[e] = s.x[d]

/-- Two canonical memories that read alike at every address are equal: the representation hides nothing
(20_memory.md R61, R65). -/
def Obligations.CanonicalMemoriesAreEqual : Prop :=
  ∀ m m' : Memory, Memory.wf m = true → Memory.wf m' = true →
    (∀ a, Memory.read m a = Memory.read m' a) → m = m'

/-! ## Control flow -/

/-- A BEQ whose condition holds, with Z = 1 and its label in the table, is taken: pc is the label's index
plus 1, or the index itself when `BRANCH_LANDS_AFTER_LABEL` is false; nothing else changes and there is
one report (44_control.md R250). -/
def Obligations.BeqTaken : Prop :=
  ∀ (m : Mods) (label : Text) (s : State) (k : Nat),
    condHolds m.cond s.flags = true → s.flags.z = true →
    (label, k) ∈ s.labels → (s.labels.map Prod.fst).Nodup →
    exec (.beq m label) s = .next
      { s.retired s.x s.flags s.mem with
        pc := if s.params.branchLandsAfterLabel then k + 1 else k }

/-- A BEQ with Z = 0 or an unknown label falls through, reported once (44_control.md R250). -/
def Obligations.BeqFallsThrough : Prop :=
  ∀ (m : Mods) (label : Text) (s : State),
    s.flags.z = false ∨ label ∉ s.labels.map Prod.fst →
    exec (.beq m label) s = .next (s.retired s.x s.flags s.mem)

/-- 44_control.md R251: whatever its suffixes, a BEQ is the plain BEQ behind the gate of its stripped
condition, its `S` ignored. So BEQEQ behaves as BEQ, BEQNE never branches, and BEQGE branches as BEQ when
N = V and falls through otherwise. -/
def Obligations.BeqThroughGenericPath : Prop :=
  ∀ (setflags : Bool) (c : Option Cond) (label : Text) (s : State),
    exec (.beq ⟨setflags, c⟩ label) s =
      (if condHolds c s.flags then exec (.beq ⟨false, none⟩ label) s
       else .next (s.retired s.x s.flags s.mem)) ∧
    exec (.beq ⟨setflags, some .eq⟩ label) s = exec (.beq ⟨false, none⟩ label) s ∧
    exec (.beq ⟨setflags, some .ne⟩ label) s = .next (s.retired s.x s.flags s.mem) ∧
    exec (.beq ⟨setflags, some .ge⟩ label) s =
      if s.flags.n = s.flags.v then exec (.beq ⟨false, none⟩ label) s
      else .next (s.retired s.x s.flags s.mem)

/-- NOP completes, whatever its suffixes, and changes nothing but the pc (44_control.md R253). -/
def Obligations.NopCompletes : Prop :=
  ∀ (m : Mods) (s : State), exec (.nop m) s = .next (s.retired s.x s.flags s.mem)

/-! ## Errors -/

/-- The first failing check decides, for every instruction and operand form: slots in textual order, then
the value check (60_exceptions.md R275 items 3 and 4); then a recoverable error leaves registers, flags
and memory and goes on, and a parse failure follows the policy (40_dispatch.md R152 to R154). -/
def Obligations.FirstFailureDecides : Prop :=
  ∀ (i : Instr) (s : State) (f : Failure),
    condHolds i.mods.cond s.flags = true → Instr.failure s i = some f →
    match f with
    | .outOfRange => ∃ message : Text,
        exec i s = .next { s.errored .outOfRange message with freeCount := s.freeCount + 1 }
    | .invalidArgument message => exec i s = .next (s.errored .invalidArgument message)
    | .parseError token =>
      match s.params.parseFailurePolicy with
      | .abort => exec i s = .next { s with status := .aborted token }
      | .recoverAsInvalidArgument => ∃ message : Text,
          exec i s = .next
            { s.errored .invalidArgument message with freeCount := s.freeCount + 1 }

/-- With no failing check, every instruction completes: one report, no error, and `pc + 1` unless it is
BEQ (40_dispatch.md R149, R159). -/
def Obligations.NoFailureCompletes : Prop :=
  ∀ (i : Instr) (s : State),
    condHolds i.mods.cond s.flags = true → Instr.failure s i = none →
    ∃ (x : Vector Word 12) (flags : Flags) (mem : Memory) (pc : Nat),
      exec i s = .next { s.retired x flags mem with pc := pc } ∧
      (i.opcode ≠ .beq → pc = s.pc + 1)

/-! ## Frames over all instructions -/

/-- Only CMP, and the ten opcodes that update flags on request when their `S` is there, change a flag, and
only when their condition holds; MVN changes neither C nor V (10_state.md R40; 41_alu.md R173). -/
def Obligations.OnlyNamedInstructionsWriteFlags : Prop :=
  ∀ (i : Instr) (s t : State), exec i s = .next t → t.flags ≠ s.flags →
    condHolds i.mods.cond s.flags = true ∧
    (i.opcode = .cmp ∨ (i.mods.setflags = true ∧ flagsOnRequest i.opcode = true)) ∧
    (i.opcode = .mvn → t.flags.c = s.flags.c ∧ t.flags.v = s.flags.v)

/-- A register that an instruction changes is its destination register (10_state.md R32). -/
def Obligations.OnlyTheDestinationRegisterChanges : Prop :=
  ∀ (i : Instr) (s t : State) (j : RegIx), exec i s = .next t → t.x[j] ≠ s.x[j] →
    ∃ rd, Instr.destination i = some rd ∧ regIndex rd = .ok j

/-- A word that an instruction changes is the one an STR addresses (20_memory.md R60; 43_load_store.md
R232). -/
def Obligations.OnlyStrChangesMemory : Prop :=
  ∀ (i : Instr) (s t : State) (a : Nat), Memory.wf s.mem = true → exec i s = .next t →
    Memory.read t.mem a ≠ Memory.read s.mem a →
    ∃ (m : Mods) (rd : RegToken) (base : MemToken) (n : RegIx),
      i = .str m rd base ∧ regIndex base.base = .ok n ∧ a = s.x[n].toNat

/-! ## The step -/

/-- When the line at the pc of a running, well-formed program decodes to an instruction, the step is that
instruction's execution; the report, the errors and the pc advance are part of `exec` (40_dispatch.md
R140, R142, R143, R156). -/
def Obligations.StepRunsDecodedInstruction : Prop :=
  ∀ (s : State) (line : Text) (i : Instr),
    s.status = .running → ProgramOk s.prog s.labels → s.prog[s.pc]? = some line →
    decodeLine line = .ok (.instr i) → step s = exec i s

/-- 30_encoding.md R97 and R98: a line with no token, or whose first token ends with `:`, is a no-op with
one report. -/
def Obligations.SkipLineIsNoOp : Prop :=
  ∀ (s : State) (line : Text),
    s.status = .running → ProgramOk s.prog s.labels → s.prog[s.pc]? = some line →
    (tokenize line = [] ∨ ∃ t rest, tokenize line = (t ++ [':']) :: rest) →
    step s = .next (s.retired s.x s.flags s.mem)

/-- A line whose base is none of the sixteen raises `InvalidArgument("unknown instruction")` when its
condition holds, its operands never looked at, and is skipped otherwise (30_encoding.md R118;
40_dispatch.md R148). -/
def Obligations.UnknownInstructionRaises : Prop :=
  ∀ (s : State) (line name : Text) (m : Mods) (operands : List Text),
    s.status = .running → ProgramOk s.prog s.labels → s.prog[s.pc]? = some line →
    decode line = .op (.unknown name) m operands →
    step s = .next
      (if condHolds m.cond s.flags then
        s.errored .invalidArgument "unknown instruction".toList
       else s.retired s.x s.flags s.mem)

/-- 40_dispatch.md R141: at `pc ≥ N` the run completes, nothing else changing, and only there. -/
def Obligations.RunCompletesAtTheEnd : Prop :=
  (∀ s : State, s.status = .running → ProgramOk s.prog s.labels → s.prog.length ≤ s.pc →
    step s = .next { s with status := .completed }) ∧
  (∀ s t : State, step s = .next t → t.status = .completed → s.prog.length ≤ s.pc)

/-- An ended run has no step: a completed state is final, and after an abort no later instruction runs
(40_dispatch.md R154, R158). -/
def Obligations.EndedRunHasNoStep : Prop :=
  ∀ s : State,
    (s.status = .completed → step s = .fault .runCompleted) ∧
    (∀ token, s.status = .aborted token → step s = .fault (.runAborted token))

/-- The machine refuses exactly the programs that are not well-formed (30_encoding.md R125). That two
labels of one name are refused is the model's reading of R44 (assumption log 5). -/
def Obligations.RefusedExactlyWhenIllFormed : Prop :=
  ∀ s : State, s.status = .running →
    ((∃ why, step s = .refused (.programRefused why)) ↔ ¬ ProgramOk s.prog s.labels) ∧
    (ProgramOk s.prog s.labels → ∃ t, step s = .next t)

/-- A word that the decoder reads as an instruction is what the step after `withFetchWord` runs
(assumption logs 2 and 9: how a line is laid out as a number is the model's choice). -/
def Obligations.FetchWordIsRun : Prop :=
  ∀ (s : State) (nbits w : Nat) (i : Instr), decodeTableWord nbits w = some i →
    step (s.withFetchWord nbits w) = exec i (s.withFetchWord nbits w)

/-- 40_dispatch.md R150, and the order of R152: every instruction that does not abort emits exactly one
report, of its own line and the state after it, last; before it at most one error event, and then
registers, flags and memory are unchanged (R153). A step that ends the run emits nothing. -/
def Obligations.OneReportPerInstruction : Prop :=
  ∀ s t : State, step s = .next t →
    (t.status = .running → ∃ line, s.prog[s.pc]? = some line ∧
      (t.trace = s.trace ++ [.report line t.x t.flags t.mem] ∨
       ∃ kind message,
         t.trace = s.trace ++ [.error kind message line, .report line t.x t.flags t.mem] ∧
         t.x = s.x ∧ t.flags = s.flags ∧ t.mem = s.mem ∧ t.pc = s.pc + 1)) ∧
    (t.status ≠ .running →
      t.trace = s.trace ∧ t.x = s.x ∧ t.flags = s.flags ∧ t.mem = s.mem ∧ t.pc = s.pc)

/-- Only a taken BEQ leaves a pc other than `pc + 1` in a run that goes on (10_state.md R35, R36; 44_control.md
R255). -/
def Obligations.OnlyTakenBeqJumps : Prop :=
  ∀ s t : State, step s = .next t → t.status = .running → t.pc ≠ s.pc + 1 →
    ∃ (line : Text) (m : Mods) (label : Text) (k : Nat),
      s.prog[s.pc]? = some line ∧ decodeLine line = .ok (.instr (.beq m label)) ∧
      condHolds m.cond s.flags = true ∧ s.flags.z = true ∧ (label, k) ∈ s.labels ∧
      t.pc = if s.params.branchLandsAfterLabel then k + 1 else k

/-- No step reads the trace or the count of free messages: states that differ only there step alike
(10_state.md R47, R48; 60_exceptions.md R278, "Error state is not sticky"). -/
def Obligations.PastEventsDoNotMatter : Prop :=
  ∀ s s' : State, s.withoutTrace = s'.withoutTrace → SameOutcome (step s) (step s')

/-- In a run of `k` steps that is still running, there are `k` new reports (95_test_vectors.md §2.10;
40_dispatch.md R150). -/
def Obligations.ReportsCountSteps : Prop :=
  ∀ (k : Nat) (s t : State), Host.Core.run Sys2Proof.core k s = .next t → t.status = .running →
    (t.trace.filter Event.isReport).length = (s.trace.filter Event.isReport).length + k

/-- 44_control.md R255: a BEQ that is taken and lands on itself repeats for ever: after any number of
steps the run is still at it, with the same registers, flags and memory (40_dispatch.md R157). -/
def Obligations.BeqSelfLoopNeverEnds : Prop :=
  ∀ (s : State) (line : Text) (m : Mods) (label : Text) (k : Nat),
    s.status = .running → ProgramOk s.prog s.labels → s.prog[s.pc]? = some line →
    decodeLine line = .ok (.instr (.beq m label)) → condHolds m.cond s.flags = true →
    s.flags.z = true → (label, k) ∈ s.labels →
    (if s.params.branchLandsAfterLabel then k + 1 else k) = s.pc →
    ∀ n : Nat, ∃ t : State, Host.Core.run Sys2Proof.core n s = .next t ∧
      t.pc = s.pc ∧ t.status = .running ∧ t.x = s.x ∧ t.flags = s.flags ∧ t.mem = s.mem
end

