-- ==== Sys2Proof/Laws/Decode.lean ====
section
/-! SUPPORT. The tokenizer, the mnemonic table and the operand slots, one lemma per form. -/

namespace Sys2Proof

/-! ## Tokens -/

theorem splitTokens_nil (token : Text) : splitTokens token [] = pushToken token [] := rfl

theorem splitTokens_sep {c : Char} (h : isSeparator c = true) (token cs : Text) :
    splitTokens token (c :: cs) = pushToken token (splitTokens [] cs) := by
  simp [splitTokens, h]

theorem splitTokens_char {c : Char} (h : isSeparator c = false) (token cs : Text) :
    splitTokens token (c :: cs) = splitTokens (token ++ [c]) cs := by
  simp [splitTokens, h]

/-- A run of token characters joins the run read so far. -/
theorem splitTokens_run {t : Text} (h : ∀ c ∈ t, isSeparator c = false) (token cs : Text) :
    splitTokens token (t ++ cs) = splitTokens (token ++ t) cs := by
  induction t generalizing token with
  | nil => simp
  | cons c t ih =>
    rw [List.cons_append, splitTokens_char (h c (by simp)), ih fun d hd => h d (by simp [hd])]
    simp

theorem pushToken_append (token : Text) (a b : List Text) :
    pushToken token (a ++ b) = pushToken token a ++ b := by
  unfold pushToken
  split <;> simp

/-- A separator cuts the tokens in two. -/
theorem splitTokens_cut {c : Char} (h : isSeparator c = true) (token l r : Text) :
    splitTokens token (l ++ c :: r) = splitTokens token l ++ splitTokens [] r := by
  induction l generalizing token with
  | nil => simp [splitTokens_sep h, splitTokens_nil, ← pushToken_append]
  | cons d l ih =>
    cases hd : isSeparator d with
    | true => simp [splitTokens_sep hd, ih, pushToken_append]
    | false => simp [splitTokens_char hd, ih]

theorem mem_pushToken {t token : Text} {rest : List Text} (h : t ∈ pushToken token rest) :
    (t = token ∧ t ≠ []) ∨ t ∈ rest := by
  unfold pushToken at h
  split at h
  · exact .inr h
  · rcases List.mem_cons.1 h with rfl | h
    · exact .inl ⟨rfl, ‹_›⟩
    · exact .inr h

/-- Every token is non-empty and made of the line's characters that are no separators. -/
theorem splitTokens_mem {token cs t : Text} (h : t ∈ splitTokens token cs)
    (ht : ∀ c ∈ token, isSeparator c = false) :
    t ≠ [] ∧ ∀ c ∈ t, isSeparator c = false ∧ (c ∈ token ∨ c ∈ cs) := by
  induction cs generalizing token with
  | nil =>
    rcases mem_pushToken h with ⟨rfl, hne⟩ | h
    · exact ⟨hne, fun c hc => ⟨ht c hc, .inl hc⟩⟩
    · simp at h
  | cons d cs ih =>
    cases hd : isSeparator d with
    | true =>
      rw [splitTokens_sep hd] at h
      rcases mem_pushToken h with ⟨rfl, hne⟩ | h
      · exact ⟨hne, fun c hc => ⟨ht c hc, .inl hc⟩⟩
      · obtain ⟨hne, hall⟩ := ih h (by simp)
        refine ⟨hne, fun c hc => ⟨(hall c hc).1, .inr ?_⟩⟩
        simpa using .inr ((hall c hc).2.resolve_left (by simp))
    | false =>
      rw [splitTokens_char hd] at h
      obtain ⟨hne, hall⟩ := ih h (by simpa [or_imp, forall_and, hd] using ht)
      refine ⟨hne, fun c hc => ⟨(hall c hc).1, ?_⟩⟩
      have := (hall c hc).2
      simp only [List.mem_append, List.mem_singleton] at this
      simp only [List.mem_cons]
      tauto

theorem normalizeCommas_append (a b : Text) :
    normalizeCommas (a ++ b) = normalizeCommas a ++ normalizeCommas b := by
  simp [normalizeCommas]

/-- A text without a comma is left as it is. -/
theorem normalizeCommas_of_none {t : Text} (h : ∀ c ∈ t, c ≠ ',') : normalizeCommas t = t := by
  unfold normalizeCommas
  conv => rhs; rw [← List.map_id t]
  exact List.map_congr_left fun c hc => by simp [h c hc]

/-- No comma is left. -/
theorem mem_normalizeCommas {l : Text} {c : Char} (h : c ∈ normalizeCommas l) : c ≠ ',' := by
  obtain ⟨d, -, rfl⟩ := List.mem_map.1 h
  split
  · decide
  · assumption

/-- What a token is. -/
theorem tokenOk_iff (t : Text) :
    tokenOk t = true ↔ t ≠ [] ∧ ∀ c ∈ t, c ≠ ',' ∧ isSeparator c = false := by
  simp [tokenOk]

/-! ## Mnemonics -/

/-- The canonical mnemonic of an opcode and its suffixes reads back (30_encoding.md R100 to R102). -/
theorem splitMnemonic_mnemonicText (op : Opcode) (m : Mods) :
    splitMnemonic (mnemonicText op m) = (.known op, m) := by
  obtain ⟨s, c⟩ := m
  cases op <;> cases s <;> rcases c with _ | c <;> first | decide | (cases c <;> decide)

/-! ## Slots -/

theorem designatorSlot_text (r : RegToken) : designatorSlot (some r.text) = .ok r := rfl

theorem designatorSlot_ok {o : Option Text} {r : RegToken} :
    designatorSlot o = .ok r ↔ o = some r.text := by
  obtain ⟨index⟩ := r
  unfold designatorSlot RegToken.text
  split <;> simp_all

theorem readMemToken_ok {t : Text} {mem : MemToken} :
    readMemToken t = some mem ↔ t = mem.text ∧ '[' ∉ mem.base.index ∧ ']' ∉ mem.base.index := by
  obtain ⟨⟨index⟩⟩ := mem
  unfold readMemToken MemToken.text RegToken.text
  constructor
  · intro h
    split at h
    · rename_i rest
      split at h
      · rename_i hc
        obtain ⟨hlast, hnone⟩ := hc
        simp only [Option.some.injEq, MemToken.mk.injEq, RegToken.mk.injEq] at h
        subst h
        refine ⟨?_, ?_, ?_⟩
        · have := List.dropLast_append_getLast? ']' hlast
          simp [this]
        · intro hm; exact hnone (List.any_eq_true.2 ⟨_, hm, by simp⟩)
        · intro hm; exact hnone (List.any_eq_true.2 ⟨_, hm, by simp⟩)
      · simp at h
    · simp at h
  · rintro ⟨rfl, h1, h2⟩
    have : ¬ (index.any fun c => decide (c = '[') || decide (c = ']')) = true := by
      rw [List.any_eq_true]
      rintro ⟨c, hc, hb⟩
      simp only [Bool.or_eq_true, decide_eq_true_eq] at hb
      rcases hb with rfl | rfl <;> contradiction
    simp [this]

end Sys2Proof
end

