-- ==== Sys2Proof/Laws/State.lean ====
section
/-! SUPPORT. What each named update of the state leaves in each field, so that no proof unfolds a record
update. -/

namespace Sys2Proof.Machine

/-! ## writeReg -/

@[simp] theorem State.writeReg_x (s : State) (i : RegIx) (v : Word) :
    (s.writeReg i v).x = s.x.set i v := rfl
@[simp] theorem State.writeReg_flags (s : State) (i : RegIx) (v : Word) :
    (s.writeReg i v).flags = s.flags := rfl
@[simp] theorem State.writeReg_mem (s : State) (i : RegIx) (v : Word) :
    (s.writeReg i v).mem = s.mem := rfl
@[simp] theorem State.writeReg_pc (s : State) (i : RegIx) (v : Word) :
    (s.writeReg i v).pc = s.pc := rfl
@[simp] theorem State.writeReg_status (s : State) (i : RegIx) (v : Word) :
    (s.writeReg i v).status = s.status := rfl
@[simp] theorem State.writeReg_trace (s : State) (i : RegIx) (v : Word) :
    (s.writeReg i v).trace = s.trace := rfl
@[simp] theorem State.writeReg_prog (s : State) (i : RegIx) (v : Word) :
    (s.writeReg i v).prog = s.prog := rfl
@[simp] theorem State.writeReg_labels (s : State) (i : RegIx) (v : Word) :
    (s.writeReg i v).labels = s.labels := rfl
@[simp] theorem State.writeReg_params (s : State) (i : RegIx) (v : Word) :
    (s.writeReg i v).params = s.params := rfl
@[simp] theorem State.writeReg_freeCount (s : State) (i : RegIx) (v : Word) :
    (s.writeReg i v).freeCount = s.freeCount := rfl

/-! ## storeWord -/

@[simp] theorem State.storeWord_x (s : State) (k : Nat) (v : Word) :
    (s.storeWord k v).x = s.x := rfl
@[simp] theorem State.storeWord_flags (s : State) (k : Nat) (v : Word) :
    (s.storeWord k v).flags = s.flags := rfl
@[simp] theorem State.storeWord_mem (s : State) (k : Nat) (v : Word) :
    (s.storeWord k v).mem = Memory.write s.mem (wordAddr k) v := rfl
@[simp] theorem State.storeWord_pc (s : State) (k : Nat) (v : Word) :
    (s.storeWord k v).pc = s.pc := rfl
@[simp] theorem State.storeWord_status (s : State) (k : Nat) (v : Word) :
    (s.storeWord k v).status = s.status := rfl
@[simp] theorem State.storeWord_trace (s : State) (k : Nat) (v : Word) :
    (s.storeWord k v).trace = s.trace := rfl
@[simp] theorem State.storeWord_prog (s : State) (k : Nat) (v : Word) :
    (s.storeWord k v).prog = s.prog := rfl
@[simp] theorem State.storeWord_labels (s : State) (k : Nat) (v : Word) :
    (s.storeWord k v).labels = s.labels := rfl
@[simp] theorem State.storeWord_params (s : State) (k : Nat) (v : Word) :
    (s.storeWord k v).params = s.params := rfl
@[simp] theorem State.storeWord_freeCount (s : State) (k : Nat) (v : Word) :
    (s.storeWord k v).freeCount = s.freeCount := rfl

/-! ## emitReport -/

@[simp] theorem State.emitReport_x (s : State) (line : Text) :
    (s.emitReport line).x = s.x := rfl
@[simp] theorem State.emitReport_flags (s : State) (line : Text) :
    (s.emitReport line).flags = s.flags := rfl
@[simp] theorem State.emitReport_mem (s : State) (line : Text) :
    (s.emitReport line).mem = s.mem := rfl
@[simp] theorem State.emitReport_pc (s : State) (line : Text) :
    (s.emitReport line).pc = s.pc := rfl
@[simp] theorem State.emitReport_status (s : State) (line : Text) :
    (s.emitReport line).status = s.status := rfl
@[simp] theorem State.emitReport_trace (s : State) (line : Text) :
    (s.emitReport line).trace = s.trace ++ [.report line s.x s.flags s.mem] := rfl
@[simp] theorem State.emitReport_prog (s : State) (line : Text) :
    (s.emitReport line).prog = s.prog := rfl
@[simp] theorem State.emitReport_labels (s : State) (line : Text) :
    (s.emitReport line).labels = s.labels := rfl
@[simp] theorem State.emitReport_params (s : State) (line : Text) :
    (s.emitReport line).params = s.params := rfl
@[simp] theorem State.emitReport_freeCount (s : State) (line : Text) :
    (s.emitReport line).freeCount = s.freeCount := rfl

/-! ## emitError -/

@[simp] theorem State.emitError_x (s : State) (kind : ErrorKind) (message line : Text) :
    (s.emitError kind message line).x = s.x := rfl
@[simp] theorem State.emitError_flags (s : State) (kind : ErrorKind) (message line : Text) :
    (s.emitError kind message line).flags = s.flags := rfl
@[simp] theorem State.emitError_mem (s : State) (kind : ErrorKind) (message line : Text) :
    (s.emitError kind message line).mem = s.mem := rfl
@[simp] theorem State.emitError_pc (s : State) (kind : ErrorKind) (message line : Text) :
    (s.emitError kind message line).pc = s.pc := rfl
@[simp] theorem State.emitError_status (s : State) (kind : ErrorKind) (message line : Text) :
    (s.emitError kind message line).status = s.status := rfl
@[simp] theorem State.emitError_trace (s : State) (kind : ErrorKind) (message line : Text) :
    (s.emitError kind message line).trace = s.trace ++ [.error kind message line] := rfl
@[simp] theorem State.emitError_prog (s : State) (kind : ErrorKind) (message line : Text) :
    (s.emitError kind message line).prog = s.prog := rfl
@[simp] theorem State.emitError_labels (s : State) (kind : ErrorKind) (message line : Text) :
    (s.emitError kind message line).labels = s.labels := rfl
@[simp] theorem State.emitError_params (s : State) (kind : ErrorKind) (message line : Text) :
    (s.emitError kind message line).params = s.params := rfl
@[simp] theorem State.emitError_freeCount (s : State) (kind : ErrorKind) (message line : Text) :
    (s.emitError kind message line).freeCount = s.freeCount := rfl

/-! ## advance -/

@[simp] theorem State.advance_x (s : State) :
    (s.advance).x = s.x := rfl
@[simp] theorem State.advance_flags (s : State) :
    (s.advance).flags = s.flags := rfl
@[simp] theorem State.advance_mem (s : State) :
    (s.advance).mem = s.mem := rfl
@[simp] theorem State.advance_pc (s : State) :
    (s.advance).pc = s.pc + 1 := rfl
@[simp] theorem State.advance_status (s : State) :
    (s.advance).status = s.status := rfl
@[simp] theorem State.advance_trace (s : State) :
    (s.advance).trace = s.trace := rfl
@[simp] theorem State.advance_prog (s : State) :
    (s.advance).prog = s.prog := rfl
@[simp] theorem State.advance_labels (s : State) :
    (s.advance).labels = s.labels := rfl
@[simp] theorem State.advance_params (s : State) :
    (s.advance).params = s.params := rfl
@[simp] theorem State.advance_freeCount (s : State) :
    (s.advance).freeCount = s.freeCount := rfl

/-! ## abortRun -/

@[simp] theorem State.abortRun_x (s : State) (token : Text) :
    (s.abortRun token).x = s.x := rfl
@[simp] theorem State.abortRun_flags (s : State) (token : Text) :
    (s.abortRun token).flags = s.flags := rfl
@[simp] theorem State.abortRun_mem (s : State) (token : Text) :
    (s.abortRun token).mem = s.mem := rfl
@[simp] theorem State.abortRun_pc (s : State) (token : Text) :
    (s.abortRun token).pc = s.pc := rfl
@[simp] theorem State.abortRun_status (s : State) (token : Text) :
    (s.abortRun token).status = .aborted token := rfl
@[simp] theorem State.abortRun_trace (s : State) (token : Text) :
    (s.abortRun token).trace = s.trace := rfl
@[simp] theorem State.abortRun_prog (s : State) (token : Text) :
    (s.abortRun token).prog = s.prog := rfl
@[simp] theorem State.abortRun_labels (s : State) (token : Text) :
    (s.abortRun token).labels = s.labels := rfl
@[simp] theorem State.abortRun_params (s : State) (token : Text) :
    (s.abortRun token).params = s.params := rfl
@[simp] theorem State.abortRun_freeCount (s : State) (token : Text) :
    (s.abortRun token).freeCount = s.freeCount := rfl

/-! ## retired -/

@[simp] theorem State.retired_x (s : State) (x : Vector Word 12) (flags : Flags) (mem : Memory) :
    (s.retired x flags mem).x = x := rfl
@[simp] theorem State.retired_flags (s : State) (x : Vector Word 12) (flags : Flags) (mem : Memory) :
    (s.retired x flags mem).flags = flags := rfl
@[simp] theorem State.retired_mem (s : State) (x : Vector Word 12) (flags : Flags) (mem : Memory) :
    (s.retired x flags mem).mem = mem := rfl
@[simp] theorem State.retired_pc (s : State) (x : Vector Word 12) (flags : Flags) (mem : Memory) :
    (s.retired x flags mem).pc = s.pc + 1 := rfl
@[simp] theorem State.retired_status (s : State) (x : Vector Word 12) (flags : Flags) (mem : Memory) :
    (s.retired x flags mem).status = s.status := rfl
@[simp] theorem State.retired_trace (s : State) (x : Vector Word 12) (flags : Flags) (mem : Memory) :
    (s.retired x flags mem).trace = s.trace ++ [.report s.line x flags mem] := rfl
@[simp] theorem State.retired_prog (s : State) (x : Vector Word 12) (flags : Flags) (mem : Memory) :
    (s.retired x flags mem).prog = s.prog := rfl
@[simp] theorem State.retired_labels (s : State) (x : Vector Word 12) (flags : Flags) (mem : Memory) :
    (s.retired x flags mem).labels = s.labels := rfl
@[simp] theorem State.retired_params (s : State) (x : Vector Word 12) (flags : Flags) (mem : Memory) :
    (s.retired x flags mem).params = s.params := rfl
@[simp] theorem State.retired_freeCount (s : State) (x : Vector Word 12) (flags : Flags) (mem : Memory) :
    (s.retired x flags mem).freeCount = s.freeCount := rfl

/-! ## errored -/

@[simp] theorem State.errored_x (s : State) (kind : ErrorKind) (message : Text) :
    (s.errored kind message).x = s.x := rfl
@[simp] theorem State.errored_flags (s : State) (kind : ErrorKind) (message : Text) :
    (s.errored kind message).flags = s.flags := rfl
@[simp] theorem State.errored_mem (s : State) (kind : ErrorKind) (message : Text) :
    (s.errored kind message).mem = s.mem := rfl
@[simp] theorem State.errored_pc (s : State) (kind : ErrorKind) (message : Text) :
    (s.errored kind message).pc = s.pc + 1 := rfl
@[simp] theorem State.errored_status (s : State) (kind : ErrorKind) (message : Text) :
    (s.errored kind message).status = s.status := rfl
@[simp] theorem State.errored_trace (s : State) (kind : ErrorKind) (message : Text) :
    (s.errored kind message).trace = s.trace ++ [.error kind message s.line, .report s.line s.x s.flags s.mem] := rfl
@[simp] theorem State.errored_prog (s : State) (kind : ErrorKind) (message : Text) :
    (s.errored kind message).prog = s.prog := rfl
@[simp] theorem State.errored_labels (s : State) (kind : ErrorKind) (message : Text) :
    (s.errored kind message).labels = s.labels := rfl
@[simp] theorem State.errored_params (s : State) (kind : ErrorKind) (message : Text) :
    (s.errored kind message).params = s.params := rfl
@[simp] theorem State.errored_freeCount (s : State) (kind : ErrorKind) (message : Text) :
    (s.errored kind message).freeCount = s.freeCount := rfl

/-! ## setFlagsIf -/

@[simp] theorem State.setFlagsIf_x (s : State) (asked : Bool) (f : Flags) :
    (s.setFlagsIf asked f).x = s.x := by cases asked <;> rfl
@[simp] theorem State.setFlagsIf_flags (s : State) (asked : Bool) (f : Flags) :
    (s.setFlagsIf asked f).flags = (if asked then f else s.flags) := by cases asked <;> rfl
@[simp] theorem State.setFlagsIf_mem (s : State) (asked : Bool) (f : Flags) :
    (s.setFlagsIf asked f).mem = s.mem := by cases asked <;> rfl
@[simp] theorem State.setFlagsIf_pc (s : State) (asked : Bool) (f : Flags) :
    (s.setFlagsIf asked f).pc = s.pc := by cases asked <;> rfl
@[simp] theorem State.setFlagsIf_status (s : State) (asked : Bool) (f : Flags) :
    (s.setFlagsIf asked f).status = s.status := by cases asked <;> rfl
@[simp] theorem State.setFlagsIf_trace (s : State) (asked : Bool) (f : Flags) :
    (s.setFlagsIf asked f).trace = s.trace := by cases asked <;> rfl
@[simp] theorem State.setFlagsIf_prog (s : State) (asked : Bool) (f : Flags) :
    (s.setFlagsIf asked f).prog = s.prog := by cases asked <;> rfl
@[simp] theorem State.setFlagsIf_labels (s : State) (asked : Bool) (f : Flags) :
    (s.setFlagsIf asked f).labels = s.labels := by cases asked <;> rfl
@[simp] theorem State.setFlagsIf_params (s : State) (asked : Bool) (f : Flags) :
    (s.setFlagsIf asked f).params = s.params := by cases asked <;> rfl
@[simp] theorem State.setFlagsIf_freeCount (s : State) (asked : Bool) (f : Flags) :
    (s.setFlagsIf asked f).freeCount = s.freeCount := by cases asked <;> rfl

/-! ## Reading back -/

@[simp] theorem State.readReg_eq (s : State) (i : RegIx) : s.readReg i = s.x[i] := rfl

@[simp] theorem State.fallThrough_state (s : State) : (fallThrough s).state = s := rfl

@[simp] theorem State.fallThrough_branched (s : State) : (fallThrough s).branched = false := rfl

theorem State.writeReg_read (s : State) (i j : RegIx) (v : Word) :
    (s.writeReg i v).x[j] = if i = j then v else s.x[j] := by
  simp [Fin.getElem_fin, Vector.getElem_set, Fin.ext_iff]

/-! ## The line -/

/-- The text of the current instruction depends on the program and the pc alone. -/
theorem State.line_congr {s t : State} (hp : t.prog = s.prog) (hpc : t.pc = s.pc) : t.line = s.line := by
  simp [State.line, hp, hpc]

theorem State.line_of_get {s : State} {line : Text} (h : s.prog[s.pc]? = some line) : s.line = line := by
  simp [State.line, h]

end Sys2Proof.Machine
end

