-- ==== Sys2Proof/Laws/Memory.lean ====
section
/-! SUPPORT. The data memory: reading after a write, the canonical form kept by every operation, the
address check. -/

namespace Sys2Proof.Machine

/-! ## Addresses -/

theorem validAddr_iff (a : Nat) :
    validAddr a = true ↔ 0x100 ≤ a ∧ a ≤ 0x110 ∧ a % 4 = 0 := by
  unfold validAddr memBase memTop
  simp only [Bool.and_eq_true, decide_eq_true_eq, and_assoc]

theorem wordAddr_index {a : Nat} (h : validAddr a = true) : wordAddr ((a - memBase) / 4) = a := by
  rw [validAddr_iff] at h
  simp only [wordAddr, memBase]
  omega

theorem memIndex_ok {ea : Word} {k : Nat} :
    memIndex ea = .ok k ↔ validAddr ea.toNat = true ∧ k = (ea.toNat - memBase) / 4 := by
  unfold memIndex
  cases validAddr ea.toNat <;> simp [eq_comm]

theorem memIndex_error {ea : Word} {f : Failure} :
    memIndex ea = .error f ↔ validAddr ea.toNat = false ∧ f = .outOfRange := by
  unfold memIndex
  cases validAddr ea.toNat <;> simp [eq_comm]

/-- The word an address check has accepted is the one at that address. -/
theorem wordAddr_of_memIndex {ea : Word} {k : Nat} (h : memIndex ea = .ok k) :
    wordAddr k = ea.toNat := by
  obtain ⟨hv, rfl⟩ := memIndex_ok.1 h
  exact wordAddr_index hv

theorem validAddr_of_memIndex {ea : Word} {k : Nat} (h : memIndex ea = .ok k) :
    validAddr (wordAddr k) = true := by
  rw [wordAddr_of_memIndex h]
  exact (memIndex_ok.1 h).1

/-! ## Reading -/

theorem Memory.read_cons (b : Nat) (v : Word) (m : Memory) (a : Nat) :
    Memory.read ((b, v) :: m) a = if a = b then v else Memory.read m a := rfl

theorem Memory.wfFrom_mono {lo hi : Nat} {m : Memory} (h : lo ≤ hi)
    (hw : Memory.wfFrom hi m = true) : Memory.wfFrom lo m = true := by
  cases m with
  | nil => rfl
  | cons c m =>
    simp only [Memory.wfFrom, Bool.and_eq_true, decide_eq_true_eq] at hw ⊢
    exact ⟨⟨⟨by omega, hw.1.1.2⟩, hw.1.2⟩, hw.2⟩

/-- Below a canonical memory's lowest address, every word is an unlisted one. -/
theorem Memory.read_below {lo : Nat} {m : Memory} {a : Nat} (hw : Memory.wfFrom lo m = true)
    (ha : a < lo) : Memory.read m a = unlistedWord := by
  induction m generalizing lo with
  | nil => rfl
  | cons c m ih =>
    obtain ⟨b, w⟩ := c
    simp only [Memory.wfFrom, Bool.and_eq_true, decide_eq_true_eq] at hw
    rw [Memory.read_cons, if_neg (by omega)]
    exact ih hw.2 (by omega)

theorem Memory.read_consCell {m : Memory} {a b : Nat} {v : Word}
    (hm : Memory.read m a = unlistedWord) :
    Memory.read (Memory.cons a v m) b = if b = a then v else Memory.read m b := by
  unfold Memory.cons
  split
  · split <;> simp_all
  · rfl

/-- What reading gives after a write: the word written at its address, every other word as before. -/
theorem Memory.read_write {lo : Nat} {m : Memory} (hw : Memory.wfFrom lo m = true) (a b : Nat)
    (v : Word) :
    Memory.read (Memory.write m a v) b = if b = a then v else Memory.read m b := by
  induction m generalizing lo with
  | nil => simpa [Memory.write] using Memory.read_consCell (m := []) rfl
  | cons c m ih =>
    obtain ⟨d, w⟩ := c
    have hr := hw
    simp only [Memory.wfFrom, Bool.and_eq_true, decide_eq_true_eq] at hr
    unfold Memory.write
    split
    · rename_i hlt
      refine Memory.read_consCell ?_
      rw [Memory.read_cons, if_neg (by omega)]
      exact Memory.read_below hr.2 (by omega)
    · split
      · rename_i hge heq
        subst heq
        rw [Memory.read_consCell (Memory.read_below hr.2 (by omega)), Memory.read_cons]
        split <;> rfl
      · rename_i hge hne
        rw [Memory.read_cons, Memory.read_cons, ih hr.2]
        split <;> split <;> first | rfl | omega

/-! ## The canonical form -/

theorem Memory.wfFrom_cons {lo a : Nat} {v : Word} {m : Memory} (hlo : lo ≤ a)
    (ha : validAddr a = true) (hw : Memory.wfFrom (a + 1) m = true) :
    Memory.wfFrom lo (Memory.cons a v m) = true := by
  unfold Memory.cons
  split
  · exact Memory.wfFrom_mono (by omega) hw
  · simp_all [Memory.wfFrom]

/-- A write to a valid address keeps the canonical form. -/
theorem Memory.wfFrom_write {lo a : Nat} {v : Word} {m : Memory} (hlo : lo ≤ a)
    (ha : validAddr a = true) (hw : Memory.wfFrom lo m = true) :
    Memory.wfFrom lo (Memory.write m a v) = true := by
  induction m generalizing lo with
  | nil => exact Memory.wfFrom_cons hlo ha rfl
  | cons c m ih =>
    obtain ⟨d, w⟩ := c
    have hr := hw
    simp only [Memory.wfFrom, Bool.and_eq_true, decide_eq_true_eq] at hr
    unfold Memory.write
    split
    · refine Memory.wfFrom_cons hlo ha ?_
      simp only [Memory.wfFrom, Bool.and_eq_true, decide_eq_true_eq]
      exact ⟨⟨⟨by omega, hr.1.1.2⟩, hr.1.2⟩, hr.2⟩
    · split
      · rename_i heq
        subst heq
        exact Memory.wfFrom_cons hlo ha hr.2
      · simp only [Memory.wfFrom, Bool.and_eq_true, decide_eq_true_eq]
        exact ⟨hr.1, ih (by omega) hr.2⟩

theorem Memory.wf_write {a : Nat} {v : Word} {m : Memory} (ha : validAddr a = true)
    (hw : Memory.wf m = true) : Memory.wf (Memory.write m a v) = true :=
  Memory.wfFrom_write (by omega) ha hw

/-- Every memory operation keeps the canonical form: a store of a checked word. -/
theorem State.storeWord_wf {s : State} {ea : Word} {k : Nat} {v : Word} (hk : memIndex ea = .ok k)
    (hw : Memory.wf s.mem = true) : Memory.wf (s.storeWord k v).mem = true :=
  Memory.wf_write (validAddr_of_memIndex hk) hw

theorem State.reset_wf : Memory.wf State.reset.mem = true := rfl

end Sys2Proof.Machine
end

