-- ==== Sys2Proof/Laws/Operands.lean ====
section
/-! SUPPORT. The Operand Resolver, one lemma per form: digits, register indices, value operands. -/

namespace Sys2Proof.Machine

theorem readDigits_nil (base : Nat) (digit : Char → Option Nat) (acc : Nat) :
    readDigits base digit acc [] = some acc := rfl

theorem readDigits_cons (base : Nat) (digit : Char → Option Nat) (acc : Nat) (c : Char) (cs : Text) :
    readDigits base digit acc (c :: cs) =
      match digit c with
      | some d => readDigits base digit (acc * base + d) cs
      | none => none := rfl

/-- A text of digits is a number: the fold of its digits' values. -/
theorem readDigits_digits {base : Nat} {digit : Char → Option Nat} {value : Char → Nat} {t : Text}
    (h : ∀ c ∈ t, digit c = some (value c)) (acc : Nat) :
    readDigits base digit acc t = some (t.foldl (fun n c => base * n + value c) acc) := by
  induction t generalizing acc with
  | nil => rfl
  | cons c cs ih =>
    rw [readDigits_cons, h c (by simp)]
    simp only [List.foldl_cons, Nat.mul_comm base acc]
    exact ih (fun d hd => h d (by simp [hd])) _

/-- A text with a character that is no digit is no number. -/
theorem readDigits_none {base : Nat} {digit : Char → Option Nat} {t : Text}
    (h : ∃ c ∈ t, digit c = none) (acc : Nat) : readDigits base digit acc t = none := by
  induction t generalizing acc with
  | nil => simp at h
  | cons c cs ih =>
    rw [readDigits_cons]
    cases hc : digit c with
    | none => rfl
    | some d =>
      obtain ⟨e, he, hn⟩ := h
      rcases List.mem_cons.1 he with rfl | he
      · simp_all
      · exact ih ⟨e, he, hn⟩ _

/-- What parsing an index gives. -/
theorem regIndex_ok {t : RegToken} {i : RegIx} :
    regIndex t = .ok i ↔ readNumber 10 decDigit t.index = some i.val := by
  unfold regIndex
  split
  · simp_all
  · rename_i n hn
    split
    · simp [hn, Fin.ext_iff]
    · rename_i hlt
      simp only [reduceCtorEq, hn, Option.some.injEq, false_iff]
      intro h
      exact hlt (h ▸ i.isLt)

theorem resolve_none (s : State) : resolve s none = .ok 0 := rfl

theorem resolve_reg (s : State) (r : Text) :
    resolve s (some ('R' :: r)) = (regIndex ⟨r⟩).map fun i => s.x[i] := rfl

theorem resolve_imm (s : State) {t : Text} (h : t ≠ []) (hR : t.head? ≠ some 'R') :
    resolve s (some t) = immValue t := by
  match t, h with
  | c :: cs, _ =>
    unfold resolve
    split <;> simp_all

/-- Resolving reads the registers alone. -/
theorem resolve_congr {s t : State} (h : t.x = s.x) (o : Option Text) : resolve t o = resolve s o := by
  unfold resolve
  split <;> simp [h]

theorem baseAddress_eq (s : State) (b : MemToken) :
    baseAddress s b = (regIndex b.base).map fun n => s.x[n] := rfl

/-- The address reads the registers alone. -/
theorem baseAddress_congr {s t : State} (h : t.x = s.x) (b : MemToken) :
    baseAddress t b = baseAddress s b := by
  simp [baseAddress_eq, h]

end Sys2Proof.Machine
end

