-- ==== Sys2Proof/Laws/Exec.lean ====
section
/-! SUPPORT. What an instruction can do, said once: the gate, the bodies behind the shared operations, and
how an instruction ends. Proofs cite these instead of unfolding `exec`. -/

namespace Sys2Proof.Machine

/-! ## How an instruction ends -/

@[simp] theorem finish_fallThrough (s : State) :
    s.finish (.ok (fallThrough s)) = s.retired s.x s.flags s.mem := rfl

@[simp] theorem finish_writeReg (s : State) (d : RegIx) (v : Word) :
    s.finish (.ok (fallThrough (s.writeReg d v))) = s.retired (s.x.set d v) s.flags s.mem := rfl

@[simp] theorem finish_writeReg_setFlagsIf (s : State) (d : RegIx) (v : Word) (asked : Bool)
    (f : Flags) :
    s.finish (.ok (fallThrough ((s.writeReg d v).setFlagsIf asked f))) =
      s.retired (s.x.set d v) (if asked then f else s.flags) s.mem := by
  cases asked <;> rfl

@[simp] theorem finish_setFlags (s : State) (f : Flags) :
    s.finish (.ok (fallThrough (s.setFlagsIf true f))) = s.retired s.x f s.mem := rfl

@[simp] theorem finish_storeWord (s : State) (k : Nat) (v : Word) :
    s.finish (.ok (fallThrough (s.storeWord k v))) =
      s.retired s.x s.flags (Memory.write s.mem (wordAddr k) v) := rfl

/-- A taken BEQ: the report, and the landing of 40_dispatch.md R155. -/
theorem finish_branch (s : State) (k : Nat) :
    s.finish (.ok { state := { s with pc := k }, branched := true }) =
      { s.retired s.x s.flags s.mem with
        pc := if s.params.branchLandsAfterLabel then k + 1 else k } := by
  cases h : s.params.branchLandsAfterLabel <;>
    simp [State.finish, State.advanceAfter, State.emitReport, State.advance, State.retired, h]

@[simp] theorem finish_error (s : State) (f : Failure) : s.finish (.error f) = s.fail f := rfl

theorem takeError_eq (s : State) (kind : ErrorKind) (message : Text) :
    s.takeError kind message = s.errored kind message := by
  simp [State.takeError, State.emitError, State.emitReport, State.advance, State.errored]

theorem fail_invalidArgument (s : State) (message : Text) :
    s.fail (.invalidArgument message) = s.errored .invalidArgument message :=
  takeError_eq s .invalidArgument message

theorem takeFreeError_eq (s : State) (kind : ErrorKind) :
    s.takeFreeError kind =
      { s.errored kind (Config.freeMessage s.freeCount) with freeCount := s.freeCount + 1 } :=
  takeError_eq _ kind _

theorem fail_outOfRange (s : State) :
    s.fail .outOfRange =
      { s.errored .outOfRange (Config.freeMessage s.freeCount) with
        freeCount := s.freeCount + 1 } :=
  takeFreeError_eq s .outOfRange

theorem fail_parseError_abort {s : State} (token : Text)
    (h : s.params.parseFailurePolicy = .abort) :
    s.fail (.parseError token) = { s with status := .aborted token } := by
  simp [State.fail, h, State.abortRun]

theorem fail_parseError_recover {s : State} (token : Text)
    (h : s.params.parseFailurePolicy = .recoverAsInvalidArgument) :
    s.fail (.parseError token) =
      { s.errored .invalidArgument (Config.freeMessage s.freeCount) with
        freeCount := s.freeCount + 1 } := by
  simp [State.fail, h, takeFreeError_eq]

/-- A failed instruction either ends the run, all else as before, or leaves an error and a report. -/
theorem fail_cases (s : State) (f : Failure) :
    (∃ token, s.fail f = { s with status := .aborted token }) ∨
    (∃ kind message n, s.fail f = { s.errored kind message with freeCount := n }) := by
  cases f with
  | outOfRange => exact .inr ⟨_, _, _, fail_outOfRange s⟩
  | invalidArgument message => exact .inr ⟨_, message, s.freeCount, fail_invalidArgument s message⟩
  | parseError token =>
    cases h : s.params.parseFailurePolicy with
    | abort => exact .inl ⟨token, fail_parseError_abort token h⟩
    | recoverAsInvalidArgument => exact .inr ⟨_, _, _, fail_parseError_recover token h⟩

/-! ## The gate -/

theorem perform_of_holds {s : State} {c : Option Cond} (h : condHolds c s.flags = true)
    (body : State → Except Failure Effect) : s.perform c body = .next (s.finish (body s)) := by
  simp [State.perform, State.gated, h]

theorem perform_of_not {s : State} {c : Option Cond} (h : condHolds c s.flags = false)
    (body : State → Except Failure Effect) :
    s.perform c body = .next (s.retired s.x s.flags s.mem) := by
  simp [State.perform, State.gated, h]

/-! ## The shared bodies -/

theorem arith_of_ok {rd : RegToken} {rn op2 : Option Text} {s : State} {d : RegIx} {a b : Word}
    (hd : regIndex rd = .ok d) (ha : resolve s rn = .ok a) (hb : resolve s op2 = .ok b)
    (asked : Bool) (compute : Word → Word → Word) (newFlags : Word → Word → Word → Flags) :
    arith asked rd rn op2 compute newFlags s =
      .ok (fallThrough ((s.writeReg d (compute a b)).setFlagsIf asked
        (newFlags a b (compute a b)))) := by
  simp [arith, hd, ha, hb, Except.bind]

theorem shift_of_ok {rd : RegToken} {rn amount : Option Text} {s : State} {d : RegIx} {a n : Word}
    (hd : regIndex rd = .ok d) (ha : resolve s rn = .ok a) (hn : resolve s amount = .ok n)
    (asked : Bool) (compute : Word → Nat → Word) :
    shift asked rd rn amount compute s =
      if n ≤ maxShift then
        .ok (fallThrough ((s.writeReg d (compute a n.toNat)).setFlagsIf asked
          (shiftFlags a (compute a n.toNat))))
      else .error (.invalidArgument badShiftMessage) := by
  simp [shift, hd, ha, hn, Except.bind]

/-! ## Every instruction is a gated body -/

/-- The body of an instruction, behind its condition gate. -/
def instrBody : Instr → State → Except Failure Effect
  | .mov _ rd src => movBody rd src
  | .mvn m rd src => mvnBody m.setflags rd src
  | .cmp _ a b => cmpBody a b
  | .add m rd a b => arith m.setflags rd a b (fun a b => a + b) addFlags
  | .sub m rd a b => arith m.setflags rd a b (fun a b => a - b) subFlags
  | .and m rd a b => arith m.setflags rd a b (fun a b => a &&& b) addFlags
  | .orr m rd a b => arith m.setflags rd a b (fun a b => a ||| b) addFlags
  | .eor m rd a b => arith m.setflags rd a b (fun a b => a ^^^ b) addFlags
  | .lsl m rd a n => shift m.setflags rd a n (fun a n => a <<< n)
  | .lsr m rd a n => shift m.setflags rd a n (fun a n => a >>> n)
  | .asr m rd a n => shift m.setflags rd a n (fun a n => a.sshiftRight n)
  | .ror m rd a n => shift m.setflags rd a n rotateRight
  | .ldr _ rd base => ldrBody rd base
  | .str _ rd base => strBody rd base
  | .beq _ label => beqBody label
  | .nop _ => fun s => .ok (fallThrough s)

theorem exec_eq_perform (i : Instr) (s : State) :
    exec i s = s.perform i.mods.cond (instrBody i) := by
  cases i <;> rfl

theorem exec_of_holds {i : Instr} {s : State} (h : condHolds i.mods.cond s.flags = true) :
    exec i s = .next (s.finish (instrBody i s)) := by
  rw [exec_eq_perform, perform_of_holds h]

/-! ## What a body can do -/

/-- A body that writes no pc: the effect is the state before it with new registers, flags and memory. -/
def WritesData (s : State) (e : Effect) : Prop :=
  ∃ x flags mem, e = fallThrough { s with x := x, flags := flags, mem := mem }

theorem writesData_writeReg (s : State) (d : RegIx) (v : Word) (asked : Bool) (f : Flags) :
    WritesData s (fallThrough ((s.writeReg d v).setFlagsIf asked f)) := by
  cases asked
  · exact ⟨s.x.set d v, s.flags, s.mem, rfl⟩
  · exact ⟨s.x.set d v, f, s.mem, rfl⟩

theorem bind_eq_ok {α β : Type} {r : Except Failure α} {g : α → Except Failure β} {y : β}
    (h : r.bind g = .ok y) : ∃ x, r = .ok x ∧ g x = .ok y := by
  cases r with
  | error f => simp [Except.bind] at h
  | ok x => exact ⟨x, rfl, h⟩

theorem arith_cases {asked : Bool} {rd : RegToken} {rn op2 : Option Text}
    {compute : Word → Word → Word} {newFlags : Word → Word → Word → Flags} {s : State} {e : Effect}
    (h : arith asked rd rn op2 compute newFlags s = .ok e) :
    ∃ d a b, regIndex rd = .ok d ∧ resolve s rn = .ok a ∧ resolve s op2 = .ok b ∧
      e = fallThrough ((s.writeReg d (compute a b)).setFlagsIf asked
        (newFlags a b (compute a b))) := by
  obtain ⟨d, hd, h⟩ := bind_eq_ok h
  obtain ⟨a, ha, h⟩ := bind_eq_ok h
  obtain ⟨b, hb, h⟩ := bind_eq_ok h
  exact ⟨d, a, b, hd, ha, hb, by simpa using h.symm⟩

theorem shift_cases {asked : Bool} {rd : RegToken} {rn amount : Option Text}
    {compute : Word → Nat → Word} {s : State} {e : Effect}
    (h : shift asked rd rn amount compute s = .ok e) :
    ∃ d a n, regIndex rd = .ok d ∧ resolve s rn = .ok a ∧ resolve s amount = .ok n ∧
      n ≤ maxShift ∧
      e = fallThrough ((s.writeReg d (compute a n.toNat)).setFlagsIf asked
        (shiftFlags a (compute a n.toNat))) := by
  obtain ⟨d, hd, h⟩ := bind_eq_ok h
  obtain ⟨a, ha, h⟩ := bind_eq_ok h
  obtain ⟨n, hn, h⟩ := bind_eq_ok h
  by_cases hle : n ≤ maxShift
  · rw [if_pos hle] at h
    exact ⟨d, a, n, hd, ha, hn, hle, by simpa using h.symm⟩
  · rw [if_neg hle] at h
    cases h

theorem movBody_cases {rd : RegToken} {src : Option Text} {s : State} {e : Effect}
    (h : movBody rd src s = .ok e) :
    ∃ d v, regIndex rd = .ok d ∧ resolve s src = .ok v ∧ e = fallThrough (s.writeReg d v) := by
  obtain ⟨d, hd, h⟩ := bind_eq_ok h
  obtain ⟨v, hv, h⟩ := bind_eq_ok h
  exact ⟨d, v, hd, hv, by simpa using h.symm⟩

theorem mvnBody_cases {asked : Bool} {rd : RegToken} {src : Option Text} {s : State} {e : Effect}
    (h : mvnBody asked rd src s = .ok e) :
    ∃ d v, regIndex rd = .ok d ∧ resolve s src = .ok v ∧
      e = fallThrough ((s.writeReg d (~~~v)).setFlagsIf asked (mvnFlags s.flags (~~~v))) := by
  obtain ⟨d, hd, h⟩ := bind_eq_ok h
  obtain ⟨v, hv, h⟩ := bind_eq_ok h
  exact ⟨d, v, hd, hv, by simpa using h.symm⟩

theorem cmpBody_cases {op1 op2 : Option Text} {s : State} {e : Effect}
    (h : cmpBody op1 op2 s = .ok e) :
    ∃ a b, resolve s op1 = .ok a ∧ resolve s op2 = .ok b ∧
      e = fallThrough (s.setFlagsIf true (subFlags a b (a - b))) := by
  obtain ⟨a, ha, h⟩ := bind_eq_ok h
  obtain ⟨b, hb, h⟩ := bind_eq_ok h
  exact ⟨a, b, ha, hb, by simpa using h.symm⟩

theorem ldrBody_cases {rd : RegToken} {base : MemToken} {s : State} {e : Effect}
    (h : ldrBody rd base s = .ok e) :
    ∃ d ea k, regIndex rd = .ok d ∧ baseAddress s base = .ok ea ∧ memIndex ea = .ok k ∧
      e = fallThrough (s.writeReg d (s.loadWord k)) := by
  obtain ⟨d, hd, h⟩ := bind_eq_ok h
  obtain ⟨ea, hea, h⟩ := bind_eq_ok h
  obtain ⟨k, hk, h⟩ := bind_eq_ok h
  exact ⟨d, ea, k, hd, hea, hk, by simpa using h.symm⟩

theorem strBody_cases {rd : RegToken} {base : MemToken} {s : State} {e : Effect}
    (h : strBody rd base s = .ok e) :
    ∃ d ea k, regIndex rd = .ok d ∧ baseAddress s base = .ok ea ∧ memIndex ea = .ok k ∧
      e = fallThrough (s.storeWord k (s.readReg d)) := by
  obtain ⟨d, hd, h⟩ := bind_eq_ok h
  obtain ⟨ea, hea, h⟩ := bind_eq_ok h
  obtain ⟨k, hk, h⟩ := bind_eq_ok h
  exact ⟨d, ea, k, hd, hea, hk, by simpa using h.symm⟩

/-- BEQ is taken, or it leaves the state alone. -/
theorem beqBody_cases (label : Text) (s : State) :
    (∃ k, s.flags.z = true ∧ s.lookupLabel label = some k ∧
      beqBody label s = .ok { state := { s with pc := k }, branched := true }) ∨
    ((s.flags.z = false ∨ s.lookupLabel label = none) ∧
      beqBody label s = .ok (fallThrough s)) := by
  unfold beqBody
  cases hz : s.flags.z <;> cases hl : s.lookupLabel label <;> simp

/-- What a body that succeeds has done: it wrote registers, flags or memory and no pc, or it is a taken
BEQ. -/
theorem instrBody_cases {i : Instr} {s : State} {e : Effect} (h : instrBody i s = .ok e) :
    WritesData s e ∨
    (∃ m label k, i = .beq m label ∧ s.flags.z = true ∧ s.lookupLabel label = some k ∧
      e = { state := { s with pc := k }, branched := true }) := by
  have fall : WritesData s (fallThrough s) := ⟨s.x, s.flags, s.mem, rfl⟩
  cases i with
  | mov m rd src =>
    obtain ⟨d, v, -, -, rfl⟩ := movBody_cases h
    exact .inl (writesData_writeReg s d v false s.flags)
  | mvn m rd src =>
    obtain ⟨d, v, -, -, rfl⟩ := mvnBody_cases h
    exact .inl (writesData_writeReg ..)
  | cmp m a b =>
    obtain ⟨a, b, -, -, rfl⟩ := cmpBody_cases h
    exact .inl ⟨s.x, _, s.mem, rfl⟩
  | add m rd a b =>
    obtain ⟨d, a, b, -, -, -, rfl⟩ := arith_cases h
    exact .inl (writesData_writeReg ..)
  | sub m rd a b =>
    obtain ⟨d, a, b, -, -, -, rfl⟩ := arith_cases h
    exact .inl (writesData_writeReg ..)
  | and m rd a b =>
    obtain ⟨d, a, b, -, -, -, rfl⟩ := arith_cases h
    exact .inl (writesData_writeReg ..)
  | orr m rd a b =>
    obtain ⟨d, a, b, -, -, -, rfl⟩ := arith_cases h
    exact .inl (writesData_writeReg ..)
  | eor m rd a b =>
    obtain ⟨d, a, b, -, -, -, rfl⟩ := arith_cases h
    exact .inl (writesData_writeReg ..)
  | lsl m rd a n =>
    obtain ⟨d, a, n, -, -, -, -, rfl⟩ := shift_cases h
    exact .inl (writesData_writeReg ..)
  | lsr m rd a n =>
    obtain ⟨d, a, n, -, -, -, -, rfl⟩ := shift_cases h
    exact .inl (writesData_writeReg ..)
  | asr m rd a n =>
    obtain ⟨d, a, n, -, -, -, -, rfl⟩ := shift_cases h
    exact .inl (writesData_writeReg ..)
  | ror m rd a n =>
    obtain ⟨d, a, n, -, -, -, -, rfl⟩ := shift_cases h
    exact .inl (writesData_writeReg ..)
  | ldr m rd base =>
    obtain ⟨d, ea, k, -, -, -, rfl⟩ := ldrBody_cases h
    exact .inl (writesData_writeReg s d _ false s.flags)
  | str m rd base =>
    obtain ⟨d, ea, k, -, -, -, rfl⟩ := strBody_cases h
    exact .inl ⟨s.x, s.flags, _, rfl⟩
  | beq m label =>
    rcases beqBody_cases label s with ⟨k, hz, hl, hb⟩ | ⟨-, hb⟩
    · exact .inr ⟨m, label, k, rfl, hz, hl, Except.ok.inj (h.symm.trans hb)⟩
    · exact .inl (Except.ok.inj (h.symm.trans hb) ▸ fall)
  | nop m => exact .inl (Except.ok.inj h ▸ fall)

/-- SAID ONCE: everything an instruction can leave. It retires with new registers, flags and memory; or it
is a taken BEQ; or it leaves an error event and nothing else; or it ends the run. -/
theorem exec_cases {i : Instr} {s t : State} (h : exec i s = .next t) :
    (∃ x flags mem, t = s.retired x flags mem) ∨
    (∃ m label k, i = .beq m label ∧ condHolds m.cond s.flags = true ∧ s.flags.z = true ∧
      s.lookupLabel label = some k ∧
      t = { s.retired s.x s.flags s.mem with
            pc := if s.params.branchLandsAfterLabel then k + 1 else k }) ∨
    (∃ kind message n, t = { s.errored kind message with freeCount := n }) ∨
    (∃ token, t = { s with status := .aborted token }) := by
  rw [exec_eq_perform] at h
  cases hc : condHolds i.mods.cond s.flags with
  | false =>
    rw [perform_of_not hc] at h
    exact .inl ⟨s.x, s.flags, s.mem, by simpa using h.symm⟩
  | true =>
    rw [perform_of_holds hc] at h
    obtain rfl : s.finish (instrBody i s) = t := by simpa using h
    cases hb : instrBody i s with
    | error f =>
      rcases fail_cases s f with ⟨token, hf⟩ | ⟨kind, message, n, hf⟩
      · exact .inr (.inr (.inr ⟨token, hf⟩))
      · exact .inr (.inr (.inl ⟨kind, message, n, hf⟩))
    | ok e =>
      rcases instrBody_cases hb with ⟨x, flags, mem, rfl⟩ | ⟨m, label, k, rfl, hz, hl, rfl⟩
      · exact .inl ⟨x, flags, mem, rfl⟩
      · exact .inr (.inl ⟨m, label, k, rfl, hc, hz, hl, finish_branch s k⟩)

end Sys2Proof.Machine
end

