-- ==== Sys2Proof/Laws/Flags.lean ====
section
/-! SUPPORT. Bit 31, pushed through the bitwise operations and down to numbers; the Condition Evaluator over
suffix texts. -/

namespace Sys2Proof.Machine

theorem getLsbD_31 (v : Word) : v.getLsbD 31 = signBit v := (BitVec.msb_eq_getLsbD_last v).symm

theorem signBit_not (v : Word) : signBit (~~~v) = !signBit v := BitVec.msb_not.trans (by simp [signBit])

theorem signBit_and (a b : Word) : signBit (a &&& b) = (signBit a && signBit b) := BitVec.msb_and

theorem signBit_or (a b : Word) : signBit (a ||| b) = (signBit a || signBit b) := BitVec.msb_or

theorem signBit_xor (a b : Word) : signBit (a ^^^ b) = (signBit a ^^ signBit b) := BitVec.msb_xor

theorem signBit_eq_decide (v : Word) : signBit v = decide (2147483648 ≤ v.toNat) := by
  simpa [signBit] using BitVec.msb_eq_decide v

/-- The signed value of a word (00_scope.md R10). -/
theorem toInt_eq (v : Word) :
    v.toInt = if 2147483648 ≤ v.toNat then (v.toNat : Int) - 4294967296 else v.toNat := by
  rw [BitVec.toInt_eq_toNat_cond]
  have := v.isLt
  split <;> split <;> omega

theorem condHolds_none (f : Flags) : condHolds none f = true := rfl

theorem readCond_condText (c : Cond) : readCond (condText c) = some c := by cases c <;> rfl

/-- A text reads as a condition only when it spells it. -/
theorem readCond_eq_some {t : Text} {c : Cond} : readCond t = some c ↔ t = condText c := by
  constructor
  · intro h
    have := List.find?_some h
    exact (of_decide_eq_true this).symm
  · rintro rfl
    exact readCond_condText c

/-- On what the decoder passes, the evaluator over texts is the one over conditions. -/
theorem condHoldsText_condText (c : Option Cond) (f : Flags) :
    condHoldsText (c.map condText) f = condHolds c f := by
  cases c with
  | none => rfl
  | some c => simp only [Option.map, condHoldsText, readCond_condText]

end Sys2Proof.Machine
end

