-- ==== Sys2Proof/Laws/PerInstr.lean ====
section
/-! SUPPORT. Facts about every instruction as syntax, one lemma per constructor. -/

namespace Sys2Proof.Laws.MnemonicReadsBack

/-- The mnemonic of an instruction's canonical line reads back as its opcode and suffixes. -/
def Statement (i : Instr) : Prop :=
  splitMnemonic (mnemonicText i.opcode i.mods) = (.known i.opcode, i.mods)

theorem mov (m : Mods) (rd : RegToken) (src : Option Text) : Statement (.mov m rd src) :=
  splitMnemonic_mnemonicText .mov m

theorem mvn (m : Mods) (rd : RegToken) (src : Option Text) : Statement (.mvn m rd src) :=
  splitMnemonic_mnemonicText .mvn m

theorem cmp (m : Mods) (op1 op2 : Option Text) : Statement (.cmp m op1 op2) :=
  splitMnemonic_mnemonicText .cmp m

theorem add (m : Mods) (rd : RegToken) (rn op2 : Option Text) : Statement (.add m rd rn op2) :=
  splitMnemonic_mnemonicText .add m

theorem sub (m : Mods) (rd : RegToken) (rn op2 : Option Text) : Statement (.sub m rd rn op2) :=
  splitMnemonic_mnemonicText .sub m

theorem and (m : Mods) (rd : RegToken) (rn op2 : Option Text) : Statement (.and m rd rn op2) :=
  splitMnemonic_mnemonicText .and m

theorem orr (m : Mods) (rd : RegToken) (rn op2 : Option Text) : Statement (.orr m rd rn op2) :=
  splitMnemonic_mnemonicText .orr m

theorem eor (m : Mods) (rd : RegToken) (rn op2 : Option Text) : Statement (.eor m rd rn op2) :=
  splitMnemonic_mnemonicText .eor m

theorem lsl (m : Mods) (rd : RegToken) (rn amount : Option Text) :
    Statement (.lsl m rd rn amount) :=
  splitMnemonic_mnemonicText .lsl m

theorem lsr (m : Mods) (rd : RegToken) (rn amount : Option Text) :
    Statement (.lsr m rd rn amount) :=
  splitMnemonic_mnemonicText .lsr m

theorem asr (m : Mods) (rd : RegToken) (rn amount : Option Text) :
    Statement (.asr m rd rn amount) :=
  splitMnemonic_mnemonicText .asr m

theorem ror (m : Mods) (rd : RegToken) (rn amount : Option Text) :
    Statement (.ror m rd rn amount) :=
  splitMnemonic_mnemonicText .ror m

theorem ldr (m : Mods) (rd : RegToken) (base : MemToken) : Statement (.ldr m rd base) :=
  splitMnemonic_mnemonicText .ldr m

theorem str (m : Mods) (rd : RegToken) (base : MemToken) : Statement (.str m rd base) :=
  splitMnemonic_mnemonicText .str m

theorem beq (m : Mods) (label : Text) : Statement (.beq m label) :=
  splitMnemonic_mnemonicText .beq m

theorem nop (m : Mods) : Statement (.nop m) := splitMnemonic_mnemonicText .nop m

end Sys2Proof.Laws.MnemonicReadsBack
end

