-- ==== Sys2Proof/Laws/Step.lean ====
section
/-! SUPPORT. What a step can do, said once: how it starts, and its outcomes. -/

namespace Sys2Proof.Machine

theorem runSkip_eq (s : State) : runSkip s = .next (s.retired s.x s.flags s.mem) := rfl

/-- A line of an unknown base: an error when its condition holds, a skip otherwise. -/
theorem runUnknown_eq (m : Mods) (s : State) :
    runUnknown m s = .next (if condHolds m.cond s.flags then
      s.errored .invalidArgument unknownMessage else s.retired s.x s.flags s.mem) := by
  unfold runUnknown
  cases hc : condHolds m.cond s.flags with
  | false => rw [perform_of_not hc]; simp
  | true => rw [perform_of_holds hc, finish_error, fail_invalidArgument]; simp

/-- A step of a running machine whose program is well-formed, at a line. -/
theorem step_of_line {s : State} {line : Text} (hs : s.status = .running)
    (hp : programProblem s.prog s.labels = none) (hl : s.prog[s.pc]? = some line) :
    step s = match decodeLine line with
      | .error why => .refused (.programRefused why)
      | .ok .skip => runSkip s
      | .ok (.unknown m _) => runUnknown m s
      | .ok (.instr i) => exec i s := by
  simp only [step, fetch, hs, hp, hl, dispatchLine]
  cases decodeLine line with
  | error why => rfl
  | ok l => cases l <;> rfl

/-- A step of a running machine whose program is well-formed, past the last line. -/
theorem step_of_end {s : State} (hs : s.status = .running)
    (hp : programProblem s.prog s.labels = none) (hl : s.prog[s.pc]? = none) :
    step s = .next { s with status := .completed } := by
  simp [step, fetch, hs, hp, hl]

theorem step_of_problem {s : State} {why : IllFormed} (hs : s.status = .running)
    (hp : programProblem s.prog s.labels = some why) :
    step s = .refused (.programRefused why) := by
  simp [step, fetch, hs, hp]

/-- SAID ONCE: how a step that answers a next state came about. -/
theorem step_cases {s t : State} (h : step s = .next t) :
    s.status = .running ∧ programProblem s.prog s.labels = none ∧
    ((s.prog[s.pc]? = none ∧ t = { s with status := .completed }) ∨
     ∃ line, s.prog[s.pc]? = some line ∧
      ((decodeLine line = .ok .skip ∧ t = s.retired s.x s.flags s.mem) ∨
       (∃ m name, decodeLine line = .ok (.unknown m name) ∧
          (t = s.errored .invalidArgument unknownMessage ∨
           t = s.retired s.x s.flags s.mem)) ∨
       ∃ i, decodeLine line = .ok (.instr i) ∧ exec i s = .next t)) := by
  cases hs : s.status with
  | completed => simp [step, fetch, hs] at h
  | aborted token => simp [step, fetch, hs] at h
  | running =>
    cases hp : programProblem s.prog s.labels with
    | some why => simp [step_of_problem hs hp] at h
    | none =>
      refine ⟨rfl, rfl, ?_⟩
      cases hl : s.prog[s.pc]? with
      | none =>
        rw [step_of_end hs hp hl] at h
        exact .inl ⟨rfl, by simpa using h.symm⟩
      | some line =>
        rw [step_of_line hs hp hl] at h
        refine .inr ⟨line, rfl, ?_⟩
        cases hd : decodeLine line with
        | error why => simp [hd] at h
        | ok l =>
          cases l with
          | skip =>
            simp only [hd, runSkip_eq] at h
            exact .inl ⟨rfl, by simpa using h.symm⟩
          | unknown m name =>
            simp only [hd, runUnknown_eq] at h
            refine .inr (.inl ⟨m, name, rfl, ?_⟩)
            split at h
            · exact .inl (by simpa using h.symm)
            · exact .inr (by simpa using h.symm)
          | instr i =>
            simp only [hd] at h
            exact .inr (.inr ⟨i, rfl, h⟩)

end Sys2Proof.Machine
end

