-- ==== Sys2Proof/Laws/WellFormed.lean ====
section
/-! SUPPORT. The decoder's check of a program is the well-formedness of 30_encoding.md R125, as
`ProgramOk` describes it. -/

namespace Sys2Proof

theorem memSlot_ok {o : Option Text} {mem : MemToken} :
    memSlot o = .ok mem ↔
      o = some mem.text ∧ '[' ∉ mem.base.index ∧ ']' ∉ mem.base.index := by
  cases o with
  | none => simp [memSlot]
  | some t =>
    rw [Option.some.injEq, ← readMemToken_ok]
    simp only [memSlot]
    cases readMemToken t <;> simp

theorem labelSlot_ok {o : Option Text} {l : Text} : labelSlot o = .ok l ↔ o = some l := by
  cases o <;> simp [labelSlot]

theorem except_bind_ok {ε α β : Type} {r : Except ε α} {g : α → Except ε β} {y : β} :
    r.bind g = .ok y ↔ ∃ x, r = .ok x ∧ g x = .ok y := by
  cases r <;> simp [Except.bind]

theorem except_map_ok {ε α β : Type} {r : Except ε α} {g : α → β} {y : β} :
    r.map g = .ok y ↔ ∃ x, r = .ok x ∧ g x = y := by
  cases r <;> simp [Except.map]

/-! ## One slot -/

theorem designatorSlot_filled (o : Option Text) :
    (∃ r, designatorSlot o = .ok r) ↔ SlotFilled .designator o := by
  simp only [designatorSlot_ok, SlotFilled]
  exact ⟨fun ⟨r, h⟩ => ⟨r.index, h⟩, fun ⟨r, h⟩ => ⟨⟨r⟩, h⟩⟩

theorem memSlot_filled (o : Option Text) :
    (∃ mem, memSlot o = .ok mem) ↔ SlotFilled .memory o := by
  simp only [memSlot_ok, SlotFilled]
  exact ⟨fun ⟨mem, h⟩ => ⟨mem.base.index, h⟩, fun ⟨r, h⟩ => ⟨⟨⟨r⟩⟩, h⟩⟩

theorem labelSlot_filled (o : Option Text) :
    (∃ l, labelSlot o = .ok l) ↔ SlotFilled .label o := by
  cases o <;> simp [labelSlot, SlotFilled]

/-! ## All slots of an opcode -/

theorem slots_one (P : Nat → SlotClass → Prop) (a : SlotClass) :
    (∀ (i : Nat) (c : SlotClass), [a][i]? = some c → P i c) ↔ P 0 a := by
  refine ⟨fun h => h 0 a rfl, ?_⟩
  rintro h (_ | _) c hc <;> simp at hc
  exact hc ▸ h

theorem slots_two (P : Nat → SlotClass → Prop) (a b : SlotClass) :
    (∀ (i : Nat) (c : SlotClass), [a, b][i]? = some c → P i c) ↔ P 0 a ∧ P 1 b := by
  refine ⟨fun h => ⟨h 0 a rfl, h 1 b rfl⟩, ?_⟩
  rintro ⟨h0, h1⟩ (_ | _ | _) c hc <;> simp at hc <;> subst hc <;> assumption

theorem slots_three (P : Nat → SlotClass → Prop) (a b d : SlotClass) :
    (∀ (i : Nat) (c : SlotClass), [a, b, d][i]? = some c → P i c) ↔ P 0 a ∧ P 1 b ∧ P 2 d := by
  refine ⟨fun h => ⟨h 0 a rfl, h 1 b rfl, h 2 d rfl⟩, ?_⟩
  rintro ⟨h0, h1, h2⟩ (_ | _ | _ | _) c hc <;> simp at hc <;> subst hc <;> assumption

theorem maxOperands_eq (op : Opcode) : maxOperands op = (signature op).length := by
  cases op <;> rfl

/-- The slots of an opcode are filled exactly when the operand tokens are as R125 item 3 asks. -/
theorem readSlots_filled (op : Opcode) (m : Mods) (ops : List Text) :
    (∃ i, readSlots op m ops = .ok i) ↔
      ∀ (i : Nat) (c : SlotClass), (signature op)[i]? = some c → SlotFilled c ops[i]? := by
  cases op
  case nop => simp [signature, readSlots]
  case cmp =>
    simp only [signature, readSlots, slots_two fun i c => SlotFilled c ops[i]?]
    simp [SlotFilled]
  case beq =>
    simp only [signature, slots_one fun i c => SlotFilled c ops[i]?, ← labelSlot_filled]
    simp [readSlots, except_map_ok]
  case mov =>
    simp only [signature, slots_two fun i c => SlotFilled c ops[i]?, ← designatorSlot_filled]
    simp [readSlots, except_map_ok, SlotFilled]
  case mvn =>
    simp only [signature, slots_two fun i c => SlotFilled c ops[i]?, ← designatorSlot_filled]
    simp [readSlots, except_map_ok, SlotFilled]
  case ldr =>
    simp only [signature, slots_two fun i c => SlotFilled c ops[i]?, ← designatorSlot_filled,
      ← memSlot_filled]
    simp [readSlots, except_bind_ok, except_map_ok]
  case str =>
    simp only [signature, slots_two fun i c => SlotFilled c ops[i]?, ← designatorSlot_filled,
      ← memSlot_filled]
    simp [readSlots, except_bind_ok, except_map_ok]
  all_goals
    simp only [signature, slots_three fun i c => SlotFilled c ops[i]?, ← designatorSlot_filled]
    simp [readSlots, except_map_ok, SlotFilled]

theorem fillSlots_ok (op : Opcode) (m : Mods) (ops : List Text) :
    (∃ i, fillSlots op m ops = .ok i) ↔ OperandsOk op ops := by
  unfold OperandsOk
  rw [← readSlots_filled op m, ← maxOperands_eq]
  unfold fillSlots
  simp only [except_bind_ok]
  by_cases h : maxOperands op < ops.length
  · simp [h]
  · simp [h, Nat.not_lt.1 h]

/-! ## Lines and programs -/

/-- A line that the decoder does not refuse is well-formed, and the other way round. -/
theorem decodeLine_ok_iff (line : Text) : (∃ l, decodeLine line = .ok l) ↔ LineOk line := by
  unfold decodeLine LineOk
  by_cases hne : line = []
  · simp [hne]
  · rw [if_neg hne]
    cases hd : decode line with
    | skip => simp [hne]
    | op b m ops =>
      cases b with
      | unknown name => simp [hne]
      | known op =>
        simp only [except_map_ok, DecodedOp.op.injEq, Base.known.injEq]
        constructor
        · rintro ⟨l, i, hi, rfl⟩
          refine ⟨hne, ?_⟩
          rintro op' m' ops' ⟨rfl, rfl, rfl⟩
          exact (fillSlots_ok op m ops).1 ⟨i, hi⟩
        · rintro ⟨-, h⟩
          obtain ⟨i, hi⟩ := (fillSlots_ok op m ops).2 (h op m ops ⟨rfl, rfl, rfl⟩)
          exact ⟨_, i, hi, rfl⟩

theorem linesProblem_none_iff (prog : List Text) :
    linesProblem prog = none ↔ ∀ line ∈ prog, LineOk line := by
  induction prog with
  | nil => simp [linesProblem]
  | cons line rest ih =>
    simp only [List.mem_cons, forall_eq_or_imp, ← decodeLine_ok_iff line]
    unfold linesProblem
    cases decodeLine line with
    | error e => simp
    | ok l => simp [ih]

theorem labelsProblem_none_iff (n : Nat) (labels : LabelTable) :
    labelsProblem n labels = none ↔
      (∀ e ∈ labels, e.2 ≤ n) ∧ (labels.map Prod.fst).Nodup := by
  have hall : (labels.all fun e => decide (e.2 ≤ n)) = true ↔ ∀ e ∈ labels, e.2 ≤ n := by
    simp only [List.all_eq_true, decide_eq_true_eq]
  rw [← hall]
  unfold labelsProblem
  split_ifs <;> simp only [false_iff, true_iff, not_and] <;> tauto

/-- The check passes exactly the well-formed programs. -/
theorem programProblem_none_iff (prog : List Text) (labels : LabelTable) :
    programProblem prog labels = none ↔ ProgramOk prog labels := by
  unfold programProblem ProgramOk
  rw [← linesProblem_none_iff, ← labelsProblem_none_iff]
  by_cases hp : prog = []
  · simp [hp]
  · rw [if_neg hp]
    cases linesProblem prog <;> simp [hp]

end Sys2Proof
end

