-- ==== Sys2Proof/Tests/Slice0.lean ====
section
/-! SUPPORT. The model's own tests: well-formedness, decoding, the spec's vectors (95_test_vectors.md), and
for every statement with hypotheses a state and operands that meet them. -/

namespace Sys2Proof.Tests

open Sys2Proof.Machine

/-! ## Helpers -/

/-- No suffix. -/
def plain : Mods := ⟨false, none⟩

/-- The registers with some of them set, all others 0. -/
def regs (l : List (RegIx × Word)) : Vector Word 12 :=
  l.foldl (fun x p => x.set p.1 p.2) (Vector.replicate 12 0)

/-- The flags, in the order N, Z, C, V (10_state.md R39). -/
def nzcv (n z c v : Nat) : Flags := ⟨n = 1, z = 1, c = 1, v = 1⟩

/-- Reset, with a program, registers and flags. -/
def start (lines : List String) (x : List (RegIx × Word)) (flags : Flags) : State :=
  { State.reset with prog := lines.map String.toList, x := regs x, flags := flags }

/-- The state after an outcome that is a next state, else the state before. -/
def landing (s : State) : Host.Outcome State Fault Refusal → State
  | .next t => t
  | _ => s

/-- The state one step on. -/
def one (s : State) : State := landing s (step s)

/-! ## WellFormed: each check refuses an ill-formed term -/

theorem test_wf_accepts :
    (Instr.add plain ⟨['1']⟩ (some ['#', '2']) none).wf = true := by decide

theorem test_wf_comma_in_token :
    (Instr.mov plain ⟨['1']⟩ (some ['#', ',', '2'])).wf = false := by decide

theorem test_wf_separator_in_register :
    (Instr.mov plain ⟨['1', '\t']⟩ none).wf = false := by decide

theorem test_wf_empty_token : (Instr.cmp plain (some []) none).wf = false := by decide

theorem test_wf_gap_before_second_value :
    (Instr.add plain ⟨['1']⟩ none (some ['2'])).wf = false := by decide

theorem test_wf_bracket_in_memory_operand :
    (Instr.ldr plain ⟨['1']⟩ ⟨⟨['0', ']']⟩⟩).wf = false := by decide

theorem test_wf_empty_label : (Instr.beq plain []).wf = false := by decide

/-! ## Refusals: the rows of 30_encoding.md R126 -/

/-- Why a line is refused, if it is. -/
def lineRefusal (line : String) : Option IllFormed :=
  match decodeLine line.toList with
  | .ok _ => none
  | .error why => some why

theorem test_refused_lines :
    ["MOV R0, #1, #2", "NOP R0", "MOV R0, # 5", "MOV", "LDR R1", "BEQ", "MOV #5, #3",
      "STR #5, [R0]", "LDR R1, R0", "LDR R1, [ R0 ]", "LDR R1, [#0x100]"].map lineRefusal =
    [some .extraOperand, some .extraOperand, some .extraOperand, some .missingDesignator,
      some .missingDesignator, some .missingLabel, some .designatorNotRegister,
      some .designatorNotRegister, some .memOperandForm, some .memOperandForm,
      some .memOperandForm] := by decide

theorem test_accepted_lines :
    ["MOV R0, #1", "NOP", "MOV R0, #5", "MOV R0", "LDR R1, [R0]", "BEQ done", "MOV R5, #3",
      "STR R5, [R0]", "LDR R1, [R2]", "MOV R12, #1", "MOV R1x, #1", "FOO R0, #1, #2, #3",
      "ADD R0, R1"].map lineRefusal = List.replicate 13 none := by decide

theorem test_refused_programs :
    programProblem [] [] = some .emptyProgram ∧
    programProblem [[]] [] = some .emptyLine ∧
    programProblem ["NOP".toList] [(['x'], 2)] = some .labelIndexRange ∧
    programProblem ["NOP".toList] [(['x'], 1), (['x'], 0)] = some .duplicateLabel ∧
    programProblem ["NOP".toList] [(['x'], 1)] = none := by decide

/-- Refused before the first step, although only the second line is at fault (95_test_vectors.md §2.9). -/
theorem test_refused_before_the_first_step :
    step (start ["MOV R0, #1", "STR R0"] [] (nzcv 0 0 0 0)) =
      .refused (.programRefused .missingDesignator) := rfl

/-! ## Decoding: a line of every constructor, written out from 30_encoding.md R91 and R114 -/

theorem test_decode_mov : decodeLine ['M', 'O', 'V', 'S', ' ', 'R', '1', ',', '5'] =
    .ok (.instr (.mov ⟨true, none⟩ ⟨['1']⟩ (some ['5']))) := by rfl

theorem test_decode_mvn : decodeLine "MVNLT R11 #0xF".toList =
    .ok (.instr (.mvn ⟨false, some .lt⟩ ⟨['1', '1']⟩ (some ['#', '0', 'x', 'F']))) := by rfl

theorem test_decode_cmp : decodeLine "CMPS R0,R1".toList =
    .ok (.instr (.cmp ⟨true, none⟩ (some ['R', '0']) (some ['R', '1']))) := by rfl

theorem test_decode_add : decodeLine "ADDSEQ R0,R1,R2".toList =
    .ok (.instr (.add ⟨true, some .eq⟩ ⟨['0']⟩ (some ['R', '1']) (some ['R', '2']))) := by rfl

theorem test_decode_sub : decodeLine "SUBNE R3,R4".toList =
    .ok (.instr (.sub ⟨false, some .ne⟩ ⟨['3']⟩ (some ['R', '4']) none)) := by rfl

theorem test_decode_and : decodeLine "ANDGT R5,1,2".toList =
    .ok (.instr (.and ⟨false, some .gt⟩ ⟨['5']⟩ (some ['1']) (some ['2']))) := by rfl

theorem test_decode_orr : decodeLine "ORRGE R6".toList =
    .ok (.instr (.orr ⟨false, some .ge⟩ ⟨['6']⟩ none none)) := by rfl

theorem test_decode_eor : decodeLine "EORLE R7,R8,R9".toList =
    .ok (.instr (.eor ⟨false, some .le⟩ ⟨['7']⟩ (some ['R', '8']) (some ['R', '9']))) := by rfl

theorem test_decode_lsl : decodeLine "LSLS R0,R1,#2".toList =
    .ok (.instr (.lsl ⟨true, none⟩ ⟨['0']⟩ (some ['R', '1']) (some ['#', '2']))) := by rfl

theorem test_decode_lsr : decodeLine "LSR R0,R1,R2".toList =
    .ok (.instr (.lsr plain ⟨['0']⟩ (some ['R', '1']) (some ['R', '2']))) := by rfl

theorem test_decode_asr : decodeLine "ASR R0,R1".toList =
    .ok (.instr (.asr plain ⟨['0']⟩ (some ['R', '1']) none)) := by rfl

theorem test_decode_ror : decodeLine "RORSLE R0 R1 8".toList =
    .ok (.instr (.ror ⟨true, some .le⟩ ⟨['0']⟩ (some ['R', '1']) (some ['8']))) := by rfl

theorem test_decode_ldr : decodeLine "LDR R1,[R0]".toList =
    .ok (.instr (.ldr plain ⟨['1']⟩ ⟨⟨['0']⟩⟩)) := by rfl

theorem test_decode_str : decodeLine "STREQ R1,[R10]".toList =
    .ok (.instr (.str ⟨false, some .eq⟩ ⟨['1']⟩ ⟨⟨['1', '0']⟩⟩)) := by rfl

theorem test_decode_beq : decodeLine "BEQ done".toList =
    .ok (.instr (.beq plain ['d', 'o', 'n', 'e'])) := by rfl

theorem test_decode_nop : decodeLine ['N', 'O', 'P'] = .ok (.instr (.nop plain)) := by rfl

/-- The lower-case and ARM spellings that are no instruction here (30_encoding.md R99, R123). -/
theorem test_decode_unknown :
    decodeLine "mov R0, #1".toList = .ok (.unknown plain ['m', 'o', 'v']) ∧
    decodeLine "BNE x".toList = .ok (.unknown ⟨false, some .ne⟩ ['B']) := ⟨rfl, rfl⟩

/-- The canonical spelling of 30_encoding.md R122. -/
theorem test_encode :
    encode (.add ⟨true, some .gt⟩ ⟨['0']⟩ (some ['R', '1']) (some ['#', '2'])) =
      "ADDSGT R0, R1, #2".toList ∧
    encode (.str plain ⟨['1']⟩ ⟨⟨['0']⟩⟩) = "STR R1, [R0]".toList := by decide

/-- The bytes 4E 4F 50, "NOP", the first lowest. -/
theorem test_table_word : decodeTableWord 24 0x504F4E = some (.nop plain) := by rfl

/-! ## Reset -/

theorem test_reset : State.reset.x = regs [] ∧ State.reset.flags = nzcv 0 0 0 0 := by decide

/-- With nothing loaded there is no instruction to run (70_reset_and_hazards.md R302, R310). -/
theorem test_reset_runs_nothing :
    step State.reset = .refused (.programRefused .emptyProgram) := rfl

/-! ## One step of each instruction, results from 95_test_vectors.md -/

theorem test_mov : -- W1
    let t := one (start ["MOV R3, #0x7B"] [] (nzcv 1 0 1 1))
    (t.x[3], t.flags) = (0x7B, nzcv 1 0 1 1) := by decide

theorem test_movs_keeps_flags : -- W1
    let t := one (start ["MOVS R0, #0"] [(0, 1)] (nzcv 0 0 0 0))
    (t.x[0], t.flags) = (0, nzcv 0 0 0 0) := by decide

theorem test_mvns : -- §2.4
    let t := one (start ["MVNS R0, #0"] [] (nzcv 0 0 1 1))
    (t.x[0], t.flags) = (0xFFFFFFFF, nzcv 1 0 1 1) := by decide

theorem test_mvns_zero : -- §2.4
    let t := one (start ["MVNS R0, #0xFFFFFFFF"] [] (nzcv 0 0 1 1))
    (t.x[0], t.flags) = (0, nzcv 0 1 1 1) := by decide

theorem test_cmp : -- W8
    let t := one (start ["CMP R0, R1"] [(0, 3), (1, 5)] (nzcv 0 0 0 0))
    (t.x[0], t.flags) = (3, nzcv 1 0 0 0) := by decide

theorem test_cmp_overflow : -- §2.4
    (one (start ["CMP #0x80000000, #1"] [] (nzcv 0 0 0 0))).flags = nzcv 0 0 1 1 := by decide

theorem test_adds_same_register : -- §2.4, operand forms
    let t := one (start ["ADDS R0, R0, R0"] [(0, 0x80000001)] (nzcv 0 0 0 0))
    (t.x[0], t.flags) = (2, nzcv 0 0 1 1) := by decide

theorem test_add_keeps_flags : -- §2.4
    let t := one (start ["ADD R0, #0x7FFFFFFF, #1"] [] (nzcv 0 1 1 0))
    (t.x[0], t.flags) = (0x80000000, nzcv 0 1 1 0) := by decide

theorem test_subs_overflow : -- §2.4
    let t := one (start ["SUBS R1, #0x80000000, #1"] [] (nzcv 0 0 0 0))
    (t.x[1], t.flags) = (0x7FFFFFFF, nzcv 0 0 1 1) := by decide

theorem test_subs_borrow : -- §2.4
    let t := one (start ["SUBS R2, R0, R1"] [(0, 3), (1, 5)] (nzcv 0 0 0 0))
    (t.x[2], t.flags) = (0xFFFFFFFE, nzcv 1 0 0 0) := by decide

theorem test_ands : -- §2.4
    let t := one (start ["ANDS R2, R1, #0x0FF0"] [(1, 0xFF00FF00)] (nzcv 0 0 0 1))
    (t.x[2], t.flags) = (0xF00, nzcv 0 0 1 0) := by decide

theorem test_orrs : -- §2.4
    let t := one (start ["ORRS R2, R1, #0x80000000"] [(1, 0x7FFFFFFF)] (nzcv 0 1 1 1))
    (t.x[2], t.flags) = (0xFFFFFFFF, nzcv 1 0 0 0) := by decide

theorem test_eors : -- §2.4
    let t := one (start ["EORS R2, R1, #0xFFFFFFFF"] [(1, 0xFFFF0000)] (nzcv 1 0 0 0))
    (t.x[2], t.flags) = (0xFFFF, nzcv 0 0 1 1) := by decide

theorem test_lsls_carry : -- §2.5
    let t := one (start ["LSLS R0, R1, #1"] [(1, 0x80000000)] (nzcv 0 0 0 0))
    (t.x[0], t.flags) = (0, nzcv 0 1 1 0) := by decide

theorem test_lsl_by_32 : -- W5
    (one (start ["LSL R1, R0, #32"] [] (nzcv 0 0 0 0))).trace =
      [.error .invalidArgument "shift amount must be 0-31".toList "LSL R1, R0, #32".toList,
       .report "LSL R1, R0, #32".toList (regs []) (nzcv 0 0 0 0) []] := by decide

theorem test_lsrs : -- §2.5
    let t := one (start ["LSRS R0, R1, #4"] [(1, 0xF0)] (nzcv 0 0 0 0))
    (t.x[0], t.flags) = (0xF, nzcv 0 0 1 0) := by decide

theorem test_lsr_by_register : -- §2.5, the greatest amount
    (one (start ["LSR R0, R1, R2"] [(1, 0xFFFFFFFF), (2, 31)] (nzcv 0 0 0 0))).x[0] = 1 := by
  decide

theorem test_asrs : -- §2.5
    let t := one (start ["ASRS R0, R1, #4"] [(1, 0x80000000)] (nzcv 0 0 0 0))
    (t.x[0], t.flags) = (0xF8000000, nzcv 1 0 0 0) := by decide

theorem test_asrs_positive : -- §2.5
    let t := one (start ["ASRS R0, R1, #31"] [(1, 0x7FFFFFFF)] (nzcv 0 0 0 0))
    (t.x[0], t.flags) = (0, nzcv 0 1 1 0) := by decide

theorem test_ror : -- §2.5
    (one (start ["ROR R0, R1, #31"] [(1, 0x12345678)] (nzcv 0 0 0 0))).x[0] = 0x2468ACF0 := by
  decide

theorem test_rors : -- §2.5
    let t := one (start ["RORS R0, R1, #1"] [(1, 1)] (nzcv 0 0 0 0))
    (t.x[0], t.flags) = (0x80000000, nzcv 1 0 0 1) := by decide

theorem test_ldr_over_its_base : -- §2.6
    (one { start ["LDR R0, [R0]"] [(0, 0x110)] (nzcv 0 0 0 0) with
      mem := [(0x110, 5)] }).x[0] = 5 := by decide

theorem test_ldr_above_the_window : -- §2.6
    let t := one (start ["LDR R3, [R0]"] [(0, 0x114), (3, 9)] (nzcv 0 0 0 0))
    (t.x[3], t.pc, t.trace.length) = (9, 1, 2) := by decide

theorem test_str : -- §2.6
    (one (start ["STR R0, [R0]"] [(0, 0x100)] (nzcv 0 0 0 0))).mem = [(0x100, 0x100)] := by decide

theorem test_str_misaligned : -- §2.6
    let t := one (start ["STR R1, [R0]"] [(0, 0x101), (1, 7)] (nzcv 0 0 0 0))
    (t.mem, t.pc) = ([], 1) := by decide

/-- The state of 95_test_vectors.md §2.7: pc = 2, `L(t) = 5`, N = 8. -/
def branching (line : String) (flags : Flags) (lands : Bool) : State :=
  { start ["NOP", "NOP", line, "NOP", "NOP", "NOP", "NOP", "NOP"] [] flags with
    pc := 2, labels := [(['t'], 5)],
    params := { Params.default with branchLandsAfterLabel := lands } }

theorem test_beq_landing : -- §2.7
    (one (branching "BEQ t" (nzcv 0 1 0 0) true)).pc = 6 ∧
    (one (branching "BEQ t" (nzcv 0 1 0 0) false)).pc = 5 := by decide

theorem test_beq_not_taken : -- §2.7
    (one (branching "BEQNE t" (nzcv 0 1 0 0) true)).pc = 3 ∧
    (one (branching "BEQ T" (nzcv 0 1 0 0) true)).pc = 3 := by decide

theorem test_nop : -- §2.7
    (one (branching "NOPEQ" (nzcv 0 0 0 0) true)) =
      (branching "NOPEQ" (nzcv 0 0 0 0) true).retired (regs []) (nzcv 0 0 0 0) [] := by decide

theorem test_parse_error_aborts : -- program P4, step 6
    let s := start ["MOV R2, #12abc"] [] (nzcv 0 0 0 0)
    one s = { s with status := .aborted "#12abc".toList } := by decide

/-- A line of each kind that runs no instruction (95_test_vectors.md §2.1, §2.3). -/
theorem test_lines_without_instruction :
    (one (start [",,"] [] (nzcv 0 0 0 0))).trace.length = 1 ∧
    (one (start ["x: MOV R0,#1"] [] (nzcv 0 0 0 0))).x[0] = 0 ∧
    (one (start ["FOOEQ R1"] [] (nzcv 0 0 0 0))).trace.length = 1 ∧
    (one (start ["FOOEQ R1"] [] (nzcv 0 1 0 0))).trace.length = 2 := by decide

/-! ## Witnesses: the hypotheses of every statement that has some are met together -/

/-- One NOP, from reset. -/
def atNop : State := start ["NOP"] [] (nzcv 0 0 0 0)

/-- `atNop` past its last line. -/
def atEnd : State := { atNop with pc := 1 }

theorem witness_ProgramOk : ProgramOk atNop.prog atNop.labels :=
  (programProblem_none_iff _ _).1 rfl

theorem witness_StepKeepsInvariant :
    Inv atNop ∧ step atNop = .next (atNop.retired atNop.x atNop.flags atNop.mem) :=
  ⟨⟨rfl, by decide, by decide, fun _ h => by cases h⟩, rfl⟩

/-- The same at the bound `pc = N + 1` of the invariant. -/
theorem witness_StepKeepsInvariant_at_the_bound :
    Inv { atNop with pc := 2 } ∧
      step { atNop with pc := 2 } = .next { atNop with pc := 2, status := .completed } :=
  ⟨⟨rfl, by decide, by decide, fun _ h => by cases h⟩, rfl⟩

theorem witness_StepKeepsRunInputs : step atEnd = .next { atEnd with status := .completed } := rfl

theorem witness_DecodeReadsBackEncode :
    (Instr.ror ⟨true, some .le⟩ ⟨['7']⟩ (some ['R', '1']) (some ['3', '1'])).wf = true ∧
      (Instr.str plain ⟨[]⟩ ⟨⟨['1', '1']⟩⟩).wf = true ∧ (Instr.cmp plain none none).wf = true := by
  decide

theorem witness_DecodedInstructionIsWellFormed :
    decodeLine "NOP".toList = .ok (.instr (.nop plain)) := rfl

theorem witness_TokensAreMaximalRuns :
    (['a', '#'] : Text) ≠ [] ∧
    (∀ c ∈ (['a', '#'] : Text), ¬ (c = ',' ∨ c.toNat ∈ [0x20, 0x09, 0x0A, 0x0B, 0x0C, 0x0D])) ∧
    (∀ c ∈ ([',', ' ', '\t', '\r'] : Text),
      c = ',' ∨ c.toNat ∈ [0x20, 0x09, 0x0A, 0x0B, 0x0C, 0x0D]) := by simp

/-- The clauses at 11 and 12, and a text that is no number. -/
theorem witness_RegisterIndexParse :
    (∀ c ∈ "011".toList ++ "12".toList, '0'.toNat ≤ c.toNat ∧ c.toNat ≤ '9'.toNat) ∧
    "011".toList.foldl (fun n c => 10 * n + (c.toNat - '0'.toNat)) 0 = 11 ∧
    "12".toList.foldl (fun n c => 10 * n + (c.toNat - '0'.toNat)) 0 = 12 ∧
    ¬ (∀ c ∈ "1x".toList, '0'.toNat ≤ c.toNat ∧ c.toNat ≤ '9'.toNat) := by simp

/-- The value of a text of digits, as `ImmediateParse` writes it. -/
def valueOf (base : Nat) (u : Text) : Nat :=
  u.foldl (fun n c => base * n +
    if c.toNat ≤ '9'.toNat then c.toNat - '0'.toNat
    else if c.toNat ≤ 'F'.toNat then c.toNat - 'A'.toNat + 10 else c.toNat - 'a'.toNat + 10) 0

/-- The four clauses of an immediate, at the greatest value and one above it. -/
theorem witness_ImmediateParse :
    "#0xffffFFFF".toList.tail = '0' :: 'x' :: "ffffFFFF".toList ∧
    valueOf 16 "ffffFFFF".toList = 0xFFFFFFFF ∧
    "0x100000000".toList = '0' :: 'x' :: "100000000".toList ∧
    ¬ valueOf 16 "100000000".toList ≤ 0xFFFFFFFF ∧
    valueOf 10 "4294967295".toList = 0xFFFFFFFF ∧ ¬ valueOf 10 "4294967296".toList ≤ 0xFFFFFFFF ∧
    immValue "#0xffffFFFF".toList = .ok 0xFFFFFFFF ∧
    immValue "4294967295".toList = .ok 0xFFFFFFFF := by decide

theorem witness_ValueOperandResolution :
    regIndex ⟨['1', '1']⟩ = .ok 11 ∧ regIndex ⟨['1', '2']⟩ = .error .outOfRange ∧
      (['5'] : Text) ≠ [] ∧ (['5'] : Text).head? ≠ some 'R' := ⟨rfl, rfl, by decide, by decide⟩

/-- An ARM code that is none of the six, the empty text, and a decoded line with a suffix. -/
theorem witness_OtherSuffixNeverHolds :
    (∀ t ∈ ([['A', 'L'], [], ['e', 'q']] : List Text),
      t ∉ ([['E', 'Q'], ['N', 'E'], ['G', 'T'], ['G', 'E'], ['L', 'T'], ['L', 'E']] : List Text)) ∧
    decode "NOPLE".toList = .op (.known .nop) ⟨false, some .le⟩ [] := ⟨by decide, rfl⟩

/-- The truth table's last row and an ordinary one (40_dispatch.md R144, R146). -/
theorem test_condition_texts :
    condHoldsText (some ['A', 'L']) (nzcv 0 1 0 0) = false ∧
    condHoldsText (some ['E', 'Q']) (nzcv 0 1 0 0) = true ∧
    condHoldsText none (nzcv 0 0 0 0) = true := by decide

theorem witness_FalseConditionSkips :
    condHolds (Instr.mov ⟨false, some .eq⟩ ⟨['1']⟩ (some ['5'])).mods.cond (nzcv 0 0 0 0) = false ∧
      condHolds (⟨false, some .lt⟩ : Mods).cond (nzcv 1 0 0 1) = false := ⟨rfl, rfl⟩

/-- MOV and MVN: a destination, and a source of each form. -/
theorem witness_MovCompletes :
    condHolds plain.cond atNop.flags = true ∧ regIndex ⟨['3']⟩ = .ok 3 ∧
      resolve atNop (some ['#', '7']) = .ok 7 ∧ resolve atNop none = .ok 0 := ⟨rfl, rfl, rfl, rfl⟩

theorem witness_MvnCompletes :
    condHolds (⟨true, some .ne⟩ : Mods).cond atNop.flags = true ∧ regIndex ⟨['1', '1']⟩ = .ok 11 ∧
      resolve atNop (some ['R', '0']) = .ok 0 := ⟨rfl, rfl, rfl⟩

theorem witness_CmpCompletes :
    condHolds plain.cond atNop.flags = true ∧ resolve atNop (some ['R', '0']) = .ok 0 ∧
      resolve atNop (some ['#', '1']) = .ok 1 := ⟨rfl, rfl, rfl⟩

/-- A state whose R1 and R2 have bit 31 set. -/
def signed : State := start ["NOP"] [(1, 0x80000000), (2, 0x80000001)] (nzcv 1 1 1 1)

theorem witness_AddCompletes :
    condHolds (⟨true, none⟩ : Mods).cond signed.flags = true ∧ regIndex ⟨['0']⟩ = .ok 0 ∧
      resolve signed (some ['R', '1']) = .ok 0x80000000 ∧
      resolve signed (some ['R', '2']) = .ok 0x80000001 := ⟨rfl, rfl, rfl, rfl⟩

theorem witness_SubCompletes :
    condHolds (⟨true, some .ge⟩ : Mods).cond signed.flags = true ∧ regIndex ⟨['1']⟩ = .ok 1 ∧
      resolve signed (some ['R', '1']) = .ok 0x80000000 ∧ resolve signed none = .ok 0 :=
  ⟨rfl, rfl, rfl, rfl⟩

theorem witness_LogicalOperationsComplete :
    condHolds (⟨true, some .le⟩ : Mods).cond signed.flags = true ∧ regIndex ⟨['2']⟩ = .ok 2 ∧
      resolve signed (some ['R', '2']) = .ok 0x80000001 ∧ resolve signed (some ['9']) = .ok 9 :=
  ⟨rfl, rfl, rfl, rfl⟩

/-- What every shift's completion asks, at the amounts 0 and 31. -/
theorem witness_shift_completions :
    condHolds (⟨true, none⟩ : Mods).cond signed.flags = true ∧ regIndex ⟨['0']⟩ = .ok 0 ∧
      resolve signed (some ['R', '1']) = .ok 0x80000000 ∧
      resolve signed none = .ok 0 ∧ (0 : Word).toNat ≤ 31 ∧
      resolve signed (some ['3', '1']) = .ok 31 ∧ (31 : Word).toNat ≤ 31 :=
  ⟨rfl, rfl, rfl, rfl, by decide, rfl, by decide⟩

theorem witness_LslCompletes :
    condHolds plain.cond signed.flags = true ∧ regIndex ⟨['0']⟩ = .ok 0 ∧
      resolve signed (some ['R', '2']) = .ok 0x80000001 ∧
      resolve signed (some ['#', '1']) = .ok 1 ∧ (1 : Word).toNat ≤ 31 :=
  ⟨rfl, rfl, rfl, rfl, by decide⟩

theorem witness_LsrCompletes :
    condHolds (⟨true, some .eq⟩ : Mods).cond signed.flags = true ∧ regIndex ⟨['1']⟩ = .ok 1 ∧
      resolve signed (some ['R', '1']) = .ok 0x80000000 ∧
      resolve signed (some ['3', '1']) = .ok 31 ∧ (31 : Word).toNat ≤ 31 :=
  ⟨rfl, rfl, rfl, rfl, by decide⟩

theorem witness_AsrCompletes :
    condHolds (⟨true, some .ge⟩ : Mods).cond signed.flags = true ∧ regIndex ⟨['1']⟩ = .ok 1 ∧
      resolve signed (some ['R', '1']) = .ok 0x80000000 ∧
      resolve signed (some ['R', '0']) = .ok 0 ∧ (0 : Word).toNat ≤ 31 :=
  ⟨rfl, rfl, rfl, rfl, by decide⟩

theorem witness_RorCompletes :
    condHolds (⟨true, some .le⟩ : Mods).cond signed.flags = true ∧ regIndex ⟨['2']⟩ = .ok 2 ∧
      resolve signed (some ['R', '2']) = .ok 0x80000001 ∧ resolve signed none = .ok 0 ∧
      (0 : Word).toNat ≤ 31 := ⟨rfl, rfl, rfl, rfl, by decide⟩

/-- The least amount that fails, and the greatest. -/
theorem witness_BadShiftAmountRaises :
    condHolds plain.cond atNop.flags = true ∧ regIndex ⟨['0']⟩ = .ok 0 ∧
      resolve atNop (some ['R', '1']) = .ok 0 ∧
      resolve atNop (some ['3', '2']) = .ok 32 ∧ 31 < (32 : Word).toNat ∧
      resolve atNop (some "#4294967295".toList) = .ok 0xFFFFFFFF ∧ 31 < (0xFFFFFFFF : Word).toNat :=
  ⟨rfl, rfl, rfl, rfl, by decide, rfl, by decide⟩

theorem witness_RotationsInvert : 1 ≤ 1 ∧ 1 ≤ 31 ∧ 31 ≤ 31 := by decide

/-- Both ends of the window, and the addresses around them that are invalid. -/
theorem witness_AddressTable :
    memIndex 0x100 = .ok 0 ∧ memIndex 0x110 = .ok 4 ∧
    ∀ ea ∈ ([0xFC, 0xFF, 0x101, 0x10F, 0x111, 0x114] : List Word),
      ea.toNat ∉ [0x100, 0x104, 0x108, 0x10C, 0x110] := ⟨rfl, rfl, by simp⟩

/-- R0 to R4 hold the lowest and the highest valid address and three invalid ones. -/
def addressed : State :=
  start ["NOP"] [(0, 0x100), (1, 0x110), (2, 0xFF), (3, 0x111), (4, 0x10A)] (nzcv 0 0 0 0)

theorem witness_LdrCompletes :
    condHolds plain.cond addressed.flags = true ∧ regIndex ⟨['0']⟩ = .ok 0 ∧
      regIndex (⟨⟨['1']⟩⟩ : MemToken).base = .ok 1 ∧ 0x100 ≤ addressed.x[(1 : RegIx)].toNat ∧
      addressed.x[(1 : RegIx)].toNat ≤ 0x110 ∧ addressed.x[(1 : RegIx)].toNat % 4 = 0 :=
  ⟨rfl, rfl, rfl, by decide, by decide, by decide⟩

theorem witness_StrCompletes :
    condHolds plain.cond addressed.flags = true ∧ regIndex ⟨['5']⟩ = .ok 5 ∧
      regIndex (⟨⟨['0']⟩⟩ : MemToken).base = .ok 0 ∧ 0x100 ≤ addressed.x[(0 : RegIx)].toNat ∧
      addressed.x[(0 : RegIx)].toNat ≤ 0x110 ∧ addressed.x[(0 : RegIx)].toNat % 4 = 0 ∧
      Memory.wf addressed.mem = true :=
  ⟨rfl, rfl, rfl, by decide, by decide, by decide, rfl⟩

/-- Each of the three ways an address can be invalid. -/
theorem witness_InvalidAddressRaises :
    condHolds plain.cond addressed.flags = true ∧ regIndex ⟨['5']⟩ = .ok 5 ∧
      regIndex (⟨⟨['2']⟩⟩ : MemToken).base = .ok 2 ∧ addressed.x[(2 : RegIx)].toNat < 0x100 ∧
      regIndex (⟨⟨['3']⟩⟩ : MemToken).base = .ok 3 ∧ 0x110 < addressed.x[(3 : RegIx)].toNat ∧
      regIndex (⟨⟨['4']⟩⟩ : MemToken).base = .ok 4 ∧ addressed.x[(4 : RegIx)].toNat % 4 ≠ 0 :=
  ⟨rfl, rfl, rfl, by decide, rfl, by decide, rfl, by decide⟩

/-- The state after a store of R1 to M[0] is both the `t` and the `u` of the statement. -/
theorem witness_StoreThenLoadGivesBack :
    Memory.wf addressed.mem = true ∧ condHolds plain.cond addressed.flags = true ∧
      regIndex ⟨['1']⟩ = .ok 1 ∧ regIndex (⟨⟨['0']⟩⟩ : MemToken).base = .ok 0 ∧
      0x100 ≤ addressed.x[(0 : RegIx)].toNat ∧ addressed.x[(0 : RegIx)].toNat ≤ 0x110 ∧
      addressed.x[(0 : RegIx)].toNat % 4 = 0 ∧
      ∃ t : State, exec (.str plain ⟨['1']⟩ ⟨⟨['0']⟩⟩) addressed = .next t ∧
        t.x[(0 : RegIx)] = addressed.x[(0 : RegIx)] ∧
        condHolds plain.cond t.flags = true ∧ regIndex ⟨['6']⟩ = .ok 6 :=
  ⟨rfl, rfl, rfl, rfl, by decide, by decide, by decide, _, rfl, rfl, rfl, rfl⟩

theorem witness_CanonicalMemoriesAreEqual :
    Memory.wf [(0x100, 1), (0x110, 2)] = true ∧
      Memory.write [(0x110, 2)] 0x100 1 = [(0x100, 1), (0x110, 2)] := by decide

theorem witness_BeqTaken :
    condHolds plain.cond (nzcv 0 1 0 0) = true ∧ (nzcv 0 1 0 0).z = true ∧
      ((['t'] : Text), 5) ∈ (branching "BEQ t" (nzcv 0 1 0 0) true).labels ∧
      ((branching "BEQ t" (nzcv 0 1 0 0) true).labels.map Prod.fst).Nodup := by decide

theorem witness_BeqFallsThrough :
    atNop.flags.z = false ∧
      (['T'] : Text) ∉ (branching "BEQ T" (nzcv 0 1 0 0) true).labels.map Prod.fst := by decide

/-- A first failure of each kind: R12, an amount of 32, a malformed index after a good one. -/
theorem witness_FirstFailureDecides :
    condHolds plain.cond atNop.flags = true ∧
    Instr.failure atNop (.mov plain ⟨['1', '2']⟩ (some ['#'])) = some .outOfRange ∧
    Instr.failure atNop (.lsl plain ⟨['0']⟩ none (some ['3', '2'])) =
      some (.invalidArgument badShiftMessage) ∧
    Instr.failure atNop (.ldr plain ⟨['0']⟩ ⟨⟨['x']⟩⟩) = some (.parseError ['R', 'x']) ∧
    atNop.params.parseFailurePolicy = .abort ∧
    ({ atNop with params := ⟨true, .recoverAsInvalidArgument⟩ } : State).params.parseFailurePolicy =
      .recoverAsInvalidArgument := by decide

theorem witness_NoFailureCompletes :
    condHolds plain.cond addressed.flags = true ∧
      Instr.failure addressed (.ldr plain ⟨['7']⟩ ⟨⟨['1']⟩⟩) = none ∧
      Instr.failure addressed (.ror plain ⟨['7']⟩ none (some ['3', '1'])) = none ∧
      Instr.failure addressed (.beq plain ['q']) = none := by decide

/-- CMP, an ADD with its `S`, and an MVN with its `S` change a flag. -/
theorem witness_OnlyNamedInstructionsWriteFlags :
    (∃ t, exec (.cmp plain none none) atNop = .next t ∧ t.flags ≠ atNop.flags) ∧
    (∃ t, exec (.add ⟨true, none⟩ ⟨['0']⟩ none none) atNop = .next t ∧ t.flags ≠ atNop.flags) ∧
    (∃ t, exec (.mvn ⟨true, none⟩ ⟨['0']⟩ none) atNop = .next t ∧ t.flags ≠ atNop.flags) :=
  ⟨⟨_, rfl, by decide⟩, ⟨_, rfl, by decide⟩, ⟨_, rfl, by decide⟩⟩

theorem witness_OnlyTheDestinationRegisterChanges :
    ∃ t, exec (.mov plain ⟨['1', '1']⟩ (some ['5'])) atNop = .next t ∧
      t.x[(11 : RegIx)] ≠ atNop.x[(11 : RegIx)] :=
  ⟨_, rfl, by decide⟩

theorem witness_OnlyStrChangesMemory :
    Memory.wf addressed.mem = true ∧
      ∃ t, exec (.str plain ⟨['3']⟩ ⟨⟨['1']⟩⟩) addressed = .next t ∧
        Memory.read t.mem 0x110 ≠ Memory.read addressed.mem 0x110 :=
  ⟨rfl, _, rfl, by decide⟩

theorem witness_StepRunsDecodedInstruction :
    atNop.status = .running ∧ ProgramOk atNop.prog atNop.labels ∧
      atNop.prog[atNop.pc]? = some "NOP".toList ∧
      decodeLine "NOP".toList = .ok (.instr (.nop plain)) :=
  ⟨rfl, witness_ProgramOk, rfl, rfl⟩

/-- A line without a token, and one whose first token ends with a colon. -/
theorem witness_SkipLineIsNoOp :
    ProgramOk [[','], "b: NOP".toList] [] ∧ tokenize [','] = [] ∧
      tokenize "b: NOP".toList = (['b'] ++ [':']) :: [['N', 'O', 'P']] :=
  ⟨(programProblem_none_iff _ _).1 rfl, rfl, rfl⟩

/-- The condition of an unknown instruction true, and false. -/
theorem witness_UnknownInstructionRaises :
    ProgramOk ["FOOEQ R12".toList] [] ∧
      decode "FOOEQ R12".toList =
        .op (.unknown ['F', 'O', 'O']) ⟨false, some .eq⟩ [['R', '1', '2']] ∧
      condHolds (some .eq) (nzcv 0 1 0 0) = true ∧ condHolds (some .eq) (nzcv 0 0 0 0) = false :=
  ⟨(programProblem_none_iff _ _).1 rfl, rfl, rfl, rfl⟩

theorem witness_RunCompletesAtTheEnd :
    atEnd.status = .running ∧ ProgramOk atEnd.prog atEnd.labels ∧ atEnd.prog.length ≤ atEnd.pc ∧
      step atEnd = .next { atEnd with status := .completed } :=
  ⟨rfl, witness_ProgramOk, by decide, rfl⟩

theorem witness_EndedRunHasNoStep :
    ({ atEnd with status := .completed } : State).status = .completed ∧
      ({ atNop with status := .aborted ['R'] } : State).status = .aborted ['R'] := ⟨rfl, rfl⟩

/-- A program that is well-formed, and one that is not. -/
theorem witness_RefusedExactlyWhenIllFormed :
    atNop.status = .running ∧ ProgramOk atNop.prog atNop.labels ∧ State.reset.status = .running ∧
      ¬ ProgramOk State.reset.prog State.reset.labels :=
  ⟨rfl, witness_ProgramOk, rfl, fun h => h.1 rfl⟩

theorem witness_FetchWordIsRun : decodeTableWord 24 0x504F4E = some (.nop plain) := rfl

/-- A step that goes on, one with an error, and the two that end the run. -/
theorem witness_OneReportPerInstruction :
    (one atNop).status = .running ∧
      (one (start ["FOO"] [] (nzcv 0 0 0 0))).status = .running ∧
      (one atEnd).status = .completed ∧
      (one (start ["MOV R0, #x"] [] (nzcv 0 0 0 0))).status = .aborted ['#', 'x'] := by decide

theorem witness_OnlyTakenBeqJumps :
    let s := branching "BEQ t" (nzcv 0 1 0 0) false
    ∃ t, step s = .next t ∧ t.status = .running ∧ t.pc ≠ s.pc + 1 :=
  ⟨_, rfl, rfl, by decide⟩

/-- Two states with different pasts. -/
theorem witness_PastEventsDoNotMatter :
    atNop.withoutTrace =
      ({ atNop with trace := [.error .outOfRange [] []], freeCount := 9 } : State).withoutTrace :=
  rfl

theorem witness_ReportsCountSteps :
    Host.Core.run Sys2Proof.core 1 atNop = .next (atNop.retired atNop.x atNop.flags atNop.mem) ∧
      (atNop.retired atNop.x atNop.flags atNop.mem).status = .running := ⟨rfl, rfl⟩

/-- A BEQ at index 1 that lands on itself, under each value of the parameter (95_test_vectors.md P7). -/
theorem witness_BeqSelfLoopNeverEnds :
    ProgramOk ["NOP".toList, "BEQ x".toList] [(['x'], 0)] ∧
      ProgramOk ["NOP".toList, "BEQ x".toList] [(['x'], 1)] ∧
      decodeLine "BEQ x".toList = .ok (.instr (.beq plain ['x'])) ∧
      condHolds plain.cond (nzcv 0 1 0 0) = true ∧ (nzcv 0 1 0 0).z = true ∧
      (if Params.default.branchLandsAfterLabel then 0 + 1 else 0) = 1 ∧
      (if ({ Params.default with branchLandsAfterLabel := false } : Params).branchLandsAfterLabel
        then 1 + 1 else 1) = 1 :=
  ⟨(programProblem_none_iff _ _).1 rfl, (programProblem_none_iff _ _).1 rfl, rfl, rfl, rfl, rfl, rfl⟩

end Sys2Proof.Tests
end

section
/-! PROOFS of 00_scope.md. The inputs of a run, and that no step changes them (R9). -/

namespace Sys2Proof.Machine

/-- The run's inputs in `t` are those in `s`: the program, the label table, the parameters. -/
def KeepsRunInputs (s t : State) : Prop :=
  t.prog = s.prog ∧ t.labels = s.labels ∧ t.params = s.params

theorem retired_keepsRunInputs (s : State) (x : Vector Word 12) (flags : Flags) (mem : Memory) :
    KeepsRunInputs s (s.retired x flags mem) :=
  ⟨s.retired_prog x flags mem, s.retired_labels x flags mem, s.retired_params x flags mem⟩

theorem errored_keepsRunInputs (s : State) (kind : ErrorKind) (message : Text) :
    KeepsRunInputs s (s.errored kind message) :=
  ⟨s.errored_prog kind message, s.errored_labels kind message, s.errored_params kind message⟩

/-- Ending the run, completed or aborted, touches the status alone. -/
theorem setStatus_keepsRunInputs (s : State) (status : Status) :
    KeepsRunInputs s { s with status := status } := ⟨rfl, rfl, rfl⟩

/-- An instruction's four outcomes: it retires, is a taken BEQ, leaves an error, or aborts the run. -/
theorem exec_keepsRunInputs {i : Instr} {s t : State} (h : exec i s = .next t) :
    KeepsRunInputs s t := by
  rcases exec_cases h with ⟨x, flags, mem, rfl⟩ | ⟨m, label, k, -, -, -, -, rfl⟩ |
    ⟨kind, message, n, rfl⟩ | ⟨token, rfl⟩
  · exact retired_keepsRunInputs s x flags mem
  · exact retired_keepsRunInputs s s.x s.flags s.mem
  · exact errored_keepsRunInputs s kind message
  · exact setStatus_keepsRunInputs s (.aborted token)

/-- Settles O4, along the outcomes of `step_cases`: the end of the run, a skipped line, an unknown
instruction with its condition true and false, an instruction. -/
theorem stepKeepsRunInputs : Obligations.StepKeepsRunInputs := by
  intro s t h
  obtain ⟨-, -, ⟨-, rfl⟩ | ⟨line, -, hline⟩⟩ := step_cases h
  · exact setStatus_keepsRunInputs s .completed
  · rcases hline with ⟨-, rfl⟩ | ⟨m, name, -, rfl | rfl⟩ | ⟨i, -, hexec⟩
    · exact retired_keepsRunInputs s s.x s.flags s.mem
    · exact errored_keepsRunInputs s .invalidArgument unknownMessage
    · exact retired_keepsRunInputs s s.x s.flags s.mem
    · exact exec_keepsRunInputs hexec

end Sys2Proof.Machine
end

section
/-! PROOFS of 10_state.md. What an instruction may write, said once: `BodyWrites`, the effects of a body with
its destination and its flags, and `exec_data`, what the whole instruction keeps of them. Then where a step
moves the pc, the invariant, and the frames of the registers, the flags and the pc (R32, R35, R36, R40). -/

namespace Sys2Proof.Machine

/-! ## What a body may write -/

/-- The instruction updates flags on request, and its `S` asks for it (R40; 41_alu.md R173). -/
def asksFlags (i : Instr) : Bool := flagsOnRequest i.opcode && i.mods.setflags

theorem asksFlags_iff {i : Instr} :
    asksFlags i = true ↔ i.mods.setflags = true ∧ flagsOnRequest i.opcode = true := by
  rw [asksFlags, Bool.and_eq_true, and_comm]

/-- The effects an instruction's body may have on `s`: each names the one place it writes. -/
inductive BodyWrites (i : Instr) (s : State) : Effect → Prop
  | nothing : BodyWrites i s (fallThrough s)
  | register {rd : RegToken} {d : RegIx} (v : Word) (f : Flags)
      (hrd : Instr.destination i = some rd) (hd : regIndex rd = .ok d)
      (hmvn : i.opcode = .mvn → f.c = s.flags.c ∧ f.v = s.flags.v) :
      BodyWrites i s (fallThrough ((s.writeReg d v).setFlagsIf (asksFlags i) f))
  | compare (f : Flags) (hcmp : i.opcode = .cmp) :
      BodyWrites i s (fallThrough (s.setFlagsIf true f))
  | store {m : Mods} {rd : RegToken} {base : MemToken} {ea : Word} {k : Nat} (v : Word)
      (hstr : i = .str m rd base) (hea : baseAddress s base = .ok ea) (hk : memIndex ea = .ok k) :
      BodyWrites i s (fallThrough (s.storeWord k v))
  | branch {m : Mods} {label : Text} (k : Nat) (hbeq : i = .beq m label) :
      BodyWrites i s { state := { s with pc := k }, branched := true }

theorem BodyWrites.of_arith {i : Instr} {s : State} {e : Effect} {rd : RegToken}
    {rn op2 : Option Text} {compute : Word → Word → Word} {newFlags : Word → Word → Word → Flags}
    (hrd : Instr.destination i = some rd) (hmvn : i.opcode ≠ .mvn)
    (h : arith (asksFlags i) rd rn op2 compute newFlags s = .ok e) : BodyWrites i s e := by
  obtain ⟨d, a, b, hd, -, -, rfl⟩ := arith_cases h
  exact .register _ _ hrd hd (absurd · hmvn)

theorem BodyWrites.of_shift {i : Instr} {s : State} {e : Effect} {rd : RegToken}
    {rn amount : Option Text} {compute : Word → Nat → Word}
    (hrd : Instr.destination i = some rd) (hmvn : i.opcode ≠ .mvn)
    (h : shift (asksFlags i) rd rn amount compute s = .ok e) : BodyWrites i s e := by
  obtain ⟨d, a, n, hd, -, -, -, rfl⟩ := shift_cases h
  exact .register _ _ hrd hd (absurd · hmvn)

theorem BodyWrites.of_instrBody {i : Instr} {s : State} {e : Effect} (h : instrBody i s = .ok e) :
    BodyWrites i s e := by
  cases i with
  | mov m rd src =>
    obtain ⟨d, v, hd, -, rfl⟩ := movBody_cases h
    exact .register v s.flags rfl hd (fun _ => ⟨rfl, rfl⟩)
  | mvn m rd src =>
    obtain ⟨d, v, hd, -, rfl⟩ := mvnBody_cases h
    exact .register (~~~v) (mvnFlags s.flags (~~~v)) rfl hd (fun _ => ⟨rfl, rfl⟩)
  | cmp m a b =>
    obtain ⟨a, b, -, -, rfl⟩ := cmpBody_cases h
    exact .compare _ rfl
  | add m rd a b => exact .of_arith rfl nofun h
  | sub m rd a b => exact .of_arith rfl nofun h
  | and m rd a b => exact .of_arith rfl nofun h
  | orr m rd a b => exact .of_arith rfl nofun h
  | eor m rd a b => exact .of_arith rfl nofun h
  | lsl m rd a n => exact .of_shift rfl nofun h
  | lsr m rd a n => exact .of_shift rfl nofun h
  | asr m rd a n => exact .of_shift rfl nofun h
  | ror m rd a n => exact .of_shift rfl nofun h
  | ldr m rd base =>
    obtain ⟨d, ea, k, hd, -, -, rfl⟩ := ldrBody_cases h
    exact .register _ s.flags rfl hd (fun _ => ⟨rfl, rfl⟩)
  | str m rd base =>
    obtain ⟨d, ea, k, -, hea, hk, rfl⟩ := strBody_cases h
    exact .store _ rfl hea hk
  | beq m label =>
    rcases beqBody_cases label s with ⟨k, -, -, hb⟩ | ⟨-, hb⟩
    · exact Except.ok.inj (h.symm.trans hb) ▸ .branch k rfl
    · exact Except.ok.inj (h.symm.trans hb) ▸ .nothing
  | nop m => exact Except.ok.inj h ▸ .nothing

/-! ## What a whole instruction keeps of it -/

/-- `t` holds the registers, flags and memory of `s`. -/
structure SameData (s t : State) : Prop where
  x : t.x = s.x
  flags : t.flags = s.flags
  mem : t.mem = s.mem

/-- The report and the advance that end an instruction write no data. -/
theorem finish_ok_sameData (s : State) (e : Effect) : SameData e.state (s.finish (.ok e)) := by
  simp only [State.finish, State.advanceAfter]
  split <;> exact ⟨rfl, rfl, rfl⟩

/-- An instruction that fails writes no data. -/
theorem fail_sameData (s : State) (f : Failure) : SameData s (s.fail f) := by
  rcases fail_cases s f with ⟨token, hf⟩ | ⟨kind, message, n, hf⟩ <;> rw [hf] <;>
    exact ⟨rfl, rfl, rfl⟩

/-- An instruction leaves the data as it was, or as its body wrote it when its condition held. -/
theorem exec_data {i : Instr} {s t : State} (h : exec i s = .next t) :
    SameData s t ∨
    (condHolds i.mods.cond s.flags = true ∧ ∃ e, BodyWrites i s e ∧ SameData e.state t) := by
  cases hc : condHolds i.mods.cond s.flags with
  | false =>
    rw [exec_eq_perform, perform_of_not hc] at h
    cases h
    exact .inl ⟨rfl, rfl, rfl⟩
  | true =>
    rw [exec_of_holds hc] at h
    cases h
    cases hb : instrBody i s with
    | error f => exact .inl (fail_sameData s f)
    | ok e => exact .inr ⟨rfl, e, .of_instrBody hb, finish_ok_sameData s e⟩

theorem BodyWrites.mem_wf {i : Instr} {s : State} {e : Effect} (h : BodyWrites i s e)
    (hw : Memory.wf s.mem = true) : Memory.wf e.state.mem = true := by
  cases h with
  | nothing => exact hw
  | register v f => simpa using hw
  | compare f => exact hw
  | store v _ _ hk => exact State.storeWord_wf hk hw
  | branch k => exact hw

theorem exec_mem_wf {i : Instr} {s t : State} (h : exec i s = .next t)
    (hw : Memory.wf s.mem = true) : Memory.wf t.mem = true := by
  rcases exec_data h with same | ⟨-, e, hwrites, same⟩
  · exact same.mem ▸ hw
  · exact same.mem ▸ hwrites.mem_wf hw

theorem step_mem_wf {s t : State} (h : step s = .next t) (hw : Memory.wf s.mem = true) :
    Memory.wf t.mem = true := by
  obtain ⟨-, -, ⟨-, rfl⟩ | ⟨line, -, hline⟩⟩ := step_cases h
  · exact hw
  · rcases hline with ⟨-, rfl⟩ | ⟨m, name, -, rfl | rfl⟩ | ⟨i, -, hexec⟩
    · exact hw
    · exact hw
    · exact hw
    · exact exec_mem_wf hexec hw

/-! ## Where a step moves the pc -/

/-- In `s`, the instruction is a BEQ that is taken to index `k` of the label table (44_control.md R250). -/
def TakenBeq (i : Instr) (s : State) (k : Nat) : Prop :=
  ∃ m label, i = .beq m label ∧ condHolds m.cond s.flags = true ∧ s.flags.z = true ∧
    (label, k) ∈ s.labels

theorem State.mem_of_lookupLabel {s : State} {label : Text} {k : Nat}
    (h : s.lookupLabel label = some k) : (label, k) ∈ s.labels := by
  obtain ⟨before, after, heq, -⟩ := List.lookup_eq_some_iff.1 h
  simp [heq]

/-- An instruction goes on to the next line, or is a taken BEQ, or aborts the run where it stands. -/
theorem exec_pc_cases {i : Instr} {s t : State} (h : exec i s = .next t) :
    (t.status = s.status ∧ t.pc = s.pc + 1) ∨
    (t.status = s.status ∧ ∃ k, TakenBeq i s k ∧
      t.pc = if s.params.branchLandsAfterLabel then k + 1 else k) ∨
    (∃ token, t = { s with status := .aborted token }) := by
  rcases exec_cases h with ⟨x, flags, mem, rfl⟩ | ⟨m, label, k, hi, hc, hz, hl, rfl⟩ |
    ⟨kind, message, n, rfl⟩ | haborted
  · exact .inl ⟨rfl, rfl⟩
  · exact .inr (.inl ⟨rfl, k, ⟨m, label, hi, hc, hz, State.mem_of_lookupLabel hl⟩, rfl⟩)
  · exact .inl ⟨rfl, rfl⟩
  · exact .inr (.inr haborted)

/-- A step completes the run past the last line; else, at a line, it goes on to the next one, takes the
line's BEQ, or aborts the run where it stands. -/
theorem step_pc_cases {s t : State} (h : step s = .next t) :
    (s.prog.length ≤ s.pc ∧ t = { s with status := .completed }) ∨
    (∃ line, s.prog[s.pc]? = some line ∧
      ((t.status = .running ∧ t.pc = s.pc + 1) ∨
       (t.status = .running ∧ ∃ i k, decodeLine line = .ok (.instr i) ∧ TakenBeq i s k ∧
          t.pc = if s.params.branchLandsAfterLabel then k + 1 else k) ∨
       (∃ token, t = { s with status := .aborted token }))) := by
  obtain ⟨hs, -, ⟨hend, rfl⟩ | ⟨line, hl, hline⟩⟩ := step_cases h
  · exact .inl ⟨List.getElem?_eq_none_iff.1 hend, rfl⟩
  · refine .inr ⟨line, hl, ?_⟩
    rcases hline with ⟨-, rfl⟩ | ⟨m, name, -, rfl | rfl⟩ | ⟨i, hd, hexec⟩
    · exact .inl ⟨hs, rfl⟩
    · exact .inl ⟨hs, rfl⟩
    · exact .inl ⟨hs, rfl⟩
    · rcases exec_pc_cases hexec with ⟨ht, hpc⟩ | ⟨ht, k, hbeq, hpc⟩ | haborted
      · exact .inl ⟨ht.trans hs, hpc⟩
      · exact .inr (.inl ⟨ht.trans hs, i, k, hd, hbeq, hpc⟩)
      · exact .inr (.inr haborted)

/-! ## The invariant -/

/-- A step is taken only in a well-formed program, whose labels are at most `N` (30_encoding.md R125). -/
theorem label_le_of_step {s t : State} (h : step s = .next t) {label : Text} {k : Nat}
    (hk : (label, k) ∈ s.labels) : k ≤ s.prog.length := by
  obtain ⟨-, hok, -⟩ := step_cases h
  obtain ⟨-, -, hlabels, -⟩ := (programProblem_none_iff s.prog s.labels).1 hok
  exact hlabels _ hk

/-- Of a run that goes on, the invariant asks only the memory's form and the pc's bound. -/
theorem inv_of_running {s : State} (hs : s.status = .running) (hw : Memory.wf s.mem = true)
    (hpc : s.pc ≤ s.prog.length + 1) : Inv s :=
  ⟨hw, hpc, fun h => by simp [hs] at h, fun _ h => by simp [hs] at h⟩

/-- Settles O3. The memory is `step_mem_wf`'s; the pc is bounded along `step_pc_cases`, by the line that was
run or by the label that was branched to. -/
theorem stepKeepsInvariant : Obligations.StepKeepsInvariant := by
  intro s t hinv h
  obtain ⟨hw, hpc, -, -⟩ := hinv
  have hmem : Memory.wf t.mem = true := step_mem_wf h hw
  obtain ⟨hprog, -, -⟩ := stepKeepsRunInputs s t h
  rcases step_pc_cases h with ⟨hend, rfl⟩ | ⟨line, hl, hline⟩
  · exact ⟨hmem, hpc, fun _ => hend, nofun⟩
  · obtain ⟨hlt, -⟩ := List.getElem?_eq_some_iff.1 hl
    rcases hline with ⟨ht, hnext⟩ | ⟨ht, i, k, -, ⟨m, label, -, -, -, hk⟩, hland⟩ | ⟨token, rfl⟩
    · exact inv_of_running ht hmem (by rw [hnext, hprog]; omega)
    · have hbound : k ≤ s.prog.length := label_le_of_step h hk
      exact inv_of_running ht hmem (by rw [hland, hprog]; split <;> omega)
    · exact ⟨hmem, hpc, nofun, fun _ _ => hlt⟩

/-- Settles O2: the reset memory lists no word, pc is 0, and the run has not ended. -/
theorem resetHasInvariant : Obligations.ResetHasInvariant :=
  inv_of_running rfl State.reset_wf (Nat.zero_le _)

/-! ## The frames of flags, registers and pc -/

/-- Settles O41: of the effects in `BodyWrites`, a compare and a register's write on request touch flags. -/
theorem onlyNamedInstructionsWriteFlags : Obligations.OnlyNamedInstructionsWriteFlags := by
  intro i s t h hne
  rcases exec_data h with same | ⟨hc, e, hwrites, same⟩
  · exact absurd same.flags hne
  refine ⟨hc, ?_⟩
  rw [same.flags] at hne ⊢
  cases hwrites with
  | nothing => exact absurd rfl hne
  | register v f hrd hd hmvn =>
    cases hasks : asksFlags i with
    | false => simp [hasks] at hne
    | true => exact ⟨.inr (asksFlags_iff.1 hasks), by simpa using hmvn⟩
  | compare f hcmp => exact ⟨.inl hcmp, fun hmvn => by simp [hcmp] at hmvn⟩
  | store v => exact absurd rfl hne
  | branch k => exact absurd rfl hne

/-- Settles O42: of the effects in `BodyWrites`, one writes a register, and it is the destination. -/
theorem onlyTheDestinationRegisterChanges : Obligations.OnlyTheDestinationRegisterChanges := by
  intro i s t j h hne
  rcases exec_data h with same | ⟨-, e, hwrites, same⟩
  · exact absurd (by rw [same.x]) hne
  rw [same.x] at hne
  cases hwrites with
  | nothing => exact absurd rfl hne
  | @register rd d v f hrd hd hmvn =>
    have hdj : d = j := by
      by_contra hdj
      rw [State.fallThrough_state, State.setFlagsIf_x, State.writeReg_read, if_neg hdj] at hne
      exact hne rfl
    exact ⟨rd, hrd, hdj ▸ hd⟩
  | compare f => exact absurd rfl hne
  | store v => exact absurd rfl hne
  | branch k => exact absurd rfl hne

/-- Settles O52: of the outcomes in `step_pc_cases`, a taken BEQ is the one that runs on from elsewhere than
the next line. -/
theorem onlyTakenBeqJumps : Obligations.OnlyTakenBeqJumps := by
  intro s t h ht hne
  rcases step_pc_cases h with ⟨-, rfl⟩ | ⟨line, hl, hline⟩
  · cases ht
  · rcases hline with ⟨-, hnext⟩ | ⟨-, i, k, hd, ⟨m, label, rfl, hc, hz, hk⟩, hpc⟩ | ⟨token, rfl⟩
    · exact absurd hnext hne
    · exact ⟨line, m, label, k, hl, hd, hc, hz, hk, hpc⟩
    · cases ht

end Sys2Proof.Machine
end

section
/-! PROOFS of 20_memory.md. The address check as the table of R64, the invalid address that makes a load or a
store fail (R63, R69), memories told apart by reading alone (R61, R65), and STR as the only writer of a word
(R60). -/

namespace Sys2Proof.Machine

/-! ## The address check -/

/-- The check and the index of R62 and R63 pick out the rows of R64's table. -/
theorem validAddr_index_iff_mem_table (a k : Nat) :
    (validAddr a = true ∧ k = (a - memBase) / 4) ↔
      (a, k) ∈ [(0x100, 0), (0x104, 1), (0x108, 2), (0x10C, 3), (0x110, 4)] := by
  simp only [validAddr_iff, memBase, List.mem_cons, Prod.mk.injEq, List.not_mem_nil, or_false]
  omega

theorem validAddr_iff_mem (a : Nat) :
    validAddr a = true ↔ a ∈ [0x100, 0x104, 0x108, 0x10C, 0x110] := by
  simp only [validAddr_iff, List.mem_cons, List.not_mem_nil, or_false]
  omega

theorem memIndex_of_not_valid {ea : Word} (h : ¬ validAddr ea.toNat = true) :
    memIndex ea = .error .outOfRange :=
  memIndex_error.2 ⟨Bool.eq_false_iff.2 h, rfl⟩

/-- The three ways an address fails R63. -/
theorem memIndex_of_outside {ea : Word}
    (h : ea.toNat < 0x100 ∨ 0x110 < ea.toNat ∨ ea.toNat % 4 ≠ 0) :
    memIndex ea = .error .outOfRange := by
  refine memIndex_of_not_valid fun hv => ?_
  obtain ⟨hlow, hhigh, haligned⟩ := (validAddr_iff _).1 hv
  omega

/-- Settles O29: the accepted pairs are the table's rows, and an address outside it fails the check. -/
theorem addressTable : Obligations.AddressTable :=
  ⟨fun ea k => memIndex_ok.trans (validAddr_index_iff_mem_table ea.toNat k),
    fun ea h => memIndex_of_not_valid (h <| (validAddr_iff_mem ea.toNat).1 ·)⟩

/-! ## Loads and stores behind the address check -/

theorem baseAddress_of_reg {base : MemToken} {n : RegIx} (h : regIndex base.base = .ok n)
    (s : State) : baseAddress s base = .ok s.x[n] := by
  rw [baseAddress_eq, h, Except.map]

theorem baseAddress_ok {s : State} {base : MemToken} {ea : Word} :
    baseAddress s base = .ok ea ↔ ∃ n, regIndex base.base = .ok n ∧ s.x[n] = ea := by
  rw [baseAddress_eq, except_map_ok]

/-- With both slots resolved, LDR is its address check, then the load. -/
theorem ldrBody_of_resolved {rd : RegToken} {base : MemToken} {s : State} {d : RegIx} {ea : Word}
    (hd : regIndex rd = .ok d) (hea : baseAddress s base = .ok ea) :
    ldrBody rd base s =
      (memIndex ea).bind fun k => .ok (fallThrough (s.writeReg d (s.loadWord k))) := by
  rw [ldrBody, hd, hea, Except.bind, Except.bind]

/-- With both slots resolved, STR is its address check, then the store. -/
theorem strBody_of_resolved {rd : RegToken} {base : MemToken} {s : State} {d : RegIx} {ea : Word}
    (hd : regIndex rd = .ok d) (hea : baseAddress s base = .ok ea) :
    strBody rd base s =
      (memIndex ea).bind fun k => .ok (fallThrough (s.storeWord k s.x[d])) := by
  rw [strBody, hd, hea, Except.bind, Except.bind, State.readReg_eq]

/-- An `OutOfRange` body leaves its error, the report of the unchanged state, and `pc + 1`; the message is
the model's next free text (assumption log 1). -/
theorem exec_of_outOfRange {i : Instr} {s : State} (hc : condHolds i.mods.cond s.flags = true)
    (hb : instrBody i s = .error .outOfRange) :
    exec i s = .next
      { s.errored .outOfRange (Config.freeMessage s.freeCount) with
        freeCount := s.freeCount + 1 } := by
  rw [exec_of_holds hc, hb, finish_error, fail_outOfRange]

/-- Settles O32: both bodies resolve their slots and then fail at the address check. -/
theorem invalidAddressRaises : Obligations.InvalidAddressRaises := by
  intro m rd base s d n hc hd hn hbad i hi
  have hea : baseAddress s base = .ok s.x[n] := baseAddress_of_reg hn s
  have hk : memIndex s.x[n] = .error .outOfRange := memIndex_of_outside hbad
  simp only [List.mem_cons, List.not_mem_nil, or_false] at hi
  rcases hi with rfl | rfl
  · have hb : ldrBody rd base s = .error .outOfRange := by
      rw [ldrBody_of_resolved hd hea, hk, Except.bind]
    exact ⟨_, exec_of_outOfRange hc hb⟩
  · have hb : strBody rd base s = .error .outOfRange := by
      rw [strBody_of_resolved hd hea, hk, Except.bind]
    exact ⟨_, exec_of_outOfRange hc hb⟩

/-! ## Canonical memories are what they read -/

/-- Reading finds only words at or above a canonical memory's bound. -/
theorem Memory.le_of_read_ne {lo : Nat} {m : Memory} {a : Nat} (hw : Memory.wfFrom lo m = true)
    (h : Memory.read m a ≠ unlistedWord) : lo ≤ a :=
  Nat.le_of_not_lt fun ha => h (Memory.read_below hw ha)

theorem Memory.wfFrom_cons_iff {lo a : Nat} {v : Word} {m : Memory} :
    Memory.wfFrom lo ((a, v) :: m) = true ↔
      lo ≤ a ∧ validAddr a = true ∧ v ≠ unlistedWord ∧ Memory.wfFrom (a + 1) m = true := by
  simp only [Memory.wfFrom, Bool.and_eq_true, decide_eq_true_eq, and_assoc]

theorem Memory.read_head (a : Nat) (v : Word) (m : Memory) : Memory.read ((a, v) :: m) a = v := by
  rw [Memory.read_cons, if_pos rfl]

theorem Memory.read_head_ne {lo a : Nat} {v : Word} {m : Memory}
    (hw : Memory.wfFrom lo ((a, v) :: m) = true) :
    Memory.read ((a, v) :: m) a ≠ unlistedWord := by
  obtain ⟨-, -, hv, -⟩ := Memory.wfFrom_cons_iff.1 hw
  rwa [Memory.read_head]

/-- A canonical memory that reads as another lists no address below the other's first. -/
theorem Memory.head_le_head {lo lo' a b : Nat} {v w : Word} {m m' : Memory}
    (hw : Memory.wfFrom lo ((a, v) :: m) = true) (hw' : Memory.wfFrom lo' ((b, w) :: m') = true)
    (hread : ∀ c, Memory.read ((a, v) :: m) c = Memory.read ((b, w) :: m') c) : a ≤ b := by
  obtain ⟨-, ha, hv, hm⟩ := Memory.wfFrom_cons_iff.1 hw
  have hfrom : Memory.wfFrom a ((a, v) :: m) = true :=
    Memory.wfFrom_cons_iff.2 ⟨le_refl a, ha, hv, hm⟩
  exact Memory.le_of_read_ne hfrom (hread b ▸ Memory.read_head_ne hw')

/-- A head cell that both memories share can be dropped: above it, neither tail lists its address. -/
theorem Memory.read_tail_eq {a : Nat} {v : Word} {m m' : Memory}
    (hw : Memory.wfFrom (a + 1) m = true) (hw' : Memory.wfFrom (a + 1) m' = true)
    (hread : ∀ c, Memory.read ((a, v) :: m) c = Memory.read ((a, v) :: m') c) (c : Nat) :
    Memory.read m c = Memory.read m' c := by
  by_cases hc : c = a
  · subst hc
    rw [Memory.read_below hw (Nat.lt_succ_self c), Memory.read_below hw' (Nat.lt_succ_self c)]
  · simpa [Memory.read_cons, hc] using hread c

/-- Canonical memories that read alike list the same cells: the head's address is the lowest that reads as no
unlisted word, and its value is what reads there. -/
theorem Memory.eq_of_read_eq {lo : Nat} {m m' : Memory} (hw : Memory.wfFrom lo m = true)
    (hw' : Memory.wfFrom lo m' = true) (hread : ∀ a, Memory.read m a = Memory.read m' a) :
    m = m' := by
  induction m generalizing lo m' with
  | nil =>
    match m' with
    | [] => rfl
    | (b, w) :: _ => exact absurd (hread b).symm (Memory.read_head_ne hw')
  | cons cell m ih =>
    obtain ⟨a, v⟩ := cell
    match m' with
    | [] => exact absurd (hread a) (Memory.read_head_ne hw)
    | (b, w) :: m' =>
      obtain rfl : a = b := le_antisymm (Memory.head_le_head hw hw' hread)
        (Memory.head_le_head hw' hw fun c => (hread c).symm)
      obtain rfl : v = w := by simpa only [Memory.read_head] using hread a
      obtain ⟨-, -, -, hm⟩ := Memory.wfFrom_cons_iff.1 hw
      obtain ⟨-, -, -, hm'⟩ := Memory.wfFrom_cons_iff.1 hw'
      rw [ih hm hm' (Memory.read_tail_eq hm hm' hread)]

/-- Settles O34, the case of no bound from below. -/
theorem canonicalMemoriesAreEqual : Obligations.CanonicalMemoriesAreEqual :=
  fun _ _ hw hw' hread => Memory.eq_of_read_eq hw hw' hread

/-! ## The only writer of a word -/

/-- What reading gives after a store to a checked address. -/
theorem State.storeWord_read {s : State} {ea : Word} {k : Nat} (hw : Memory.wf s.mem = true)
    (hk : memIndex ea = .ok k) (v : Word) (a : Nat) :
    Memory.read (s.storeWord k v).mem a = if a = ea.toNat then v else Memory.read s.mem a := by
  rw [State.storeWord_mem, Memory.read_write hw, wordAddr_of_memIndex hk]

/-- Settles O43: of the effects in `BodyWrites`, the store alone touches memory, at its base's value. -/
theorem onlyStrChangesMemory : Obligations.OnlyStrChangesMemory := by
  intro i s t a hw h hne
  rcases exec_data h with same | ⟨-, e, hwrites, same⟩
  · exact absurd (by rw [same.mem]) hne
  rw [same.mem] at hne
  cases hwrites with
  | nothing => exact absurd rfl hne
  | register v f => simp at hne
  | compare f => exact absurd rfl hne
  | @store m rd base ea k v hstr hea hk =>
    obtain ⟨n, hn, rfl⟩ := baseAddress_ok.1 hea
    have ha : a = s.x[n].toNat := by
      by_contra ha
      exact hne ((State.storeWord_read hw hk v a).trans (if_neg ha))
    exact ⟨m, rd, base, n, hstr, hn, ha⟩
  | branch k => exact absurd rfl hne

end Sys2Proof.Machine
end

section
/-! PROOFS of 30_encoding.md, the decoder and the encoder. The tokens of a line (R95, R96), what `decode` and
`decodeLine` read, said once, the operand slots (R114), and that decoding reads back `encode` (R122, R124). -/

namespace Sys2Proof

/-! ## The tokens of a line -/

theorem isSeparator_iff (c : Char) :
    isSeparator c = true ↔ c.toNat ∈ [0x20, 0x09, 0x0A, 0x0B, 0x0C, 0x0D] := by
  simp only [isSeparator, Bool.or_eq_true, Bool.and_eq_true, decide_eq_true_eq, List.mem_cons,
    List.not_mem_nil, or_false]
  omega

/-- A comma has become a separator, and a separator is left as it is. -/
theorem tokenize_cut {c : Char} (h : c = ',' ∨ isSeparator c = true) (l r : Text) :
    tokenize (l ++ c :: r) = tokenize l ++ tokenize r := by
  have hcut : isSeparator (if c = ',' then ' ' else c) = true := by
    split
    · rfl
    · exact h.resolve_left ‹_›
  rw [tokenize, normalizeCommas_append]
  exact splitTokens_cut hcut [] _ _

theorem tokenize_token {t : Text} (h : tokenOk t = true) : tokenize t = [t] := by
  obtain ⟨hne, hall⟩ := (tokenOk_iff t).1 h
  have hrun := splitTokens_run (fun c hc => (hall c hc).2) [] []
  rw [tokenize, normalizeCommas_of_none fun c hc => (hall c hc).1]
  simpa [splitTokens_nil, pushToken, hne] using hrun

/-- The separators and the comma all come before the letters and digits. -/
theorem tokenOk_of_comma_lt {t : Text} (hne : t ≠ []) (h : ∀ c ∈ t, ','.toNat < c.toNat) :
    tokenOk t = true := by
  refine (tokenOk_iff t).2 ⟨hne, fun c hc => ⟨?_, Bool.eq_false_iff.2 fun hsep => ?_⟩⟩
  · rintro rfl
    exact lt_irrefl _ (h ',' hc)
  · have hlow := h c hc
    have hvalues := (isSeparator_iff c).1 hsep
    simp only [List.mem_cons, List.not_mem_nil, or_false, Char.reduceToNat] at hvalues hlow
    omega

theorem tokenOk_of_mem_tokenize {line t : Text} (h : t ∈ tokenize line) : tokenOk t = true := by
  obtain ⟨hne, hall⟩ := splitTokens_mem h (by simp)
  refine (tokenOk_iff t).2 ⟨hne, fun c hc => ⟨?_, (hall c hc).1⟩⟩
  exact mem_normalizeCommas ((hall c hc).2.resolve_left (by simp))

/-- Settles O9: a line is cut at a comma or a separator, and a text with neither is one token. -/
theorem tokensAreMaximalRuns : Obligations.TokensAreMaximalRuns := by
  refine ⟨rfl, fun t hne hall => ?_, fun l r c hc => ?_⟩
  · refine tokenize_token ((tokenOk_iff t).2 ⟨hne, fun c hc => ?_⟩)
    obtain ⟨hcomma, hsep⟩ := not_or.1 (hall c hc)
    exact ⟨hcomma, Bool.eq_false_iff.2 fun h => hsep ((isSeparator_iff c).1 h)⟩
  · exact tokenize_cut (hc.imp_right (isSeparator_iff c).2) l r

/-! ## The tokens of a canonical line -/

/-- An operand and the later ones, each of those behind a comma and a space. -/
theorem tokenize_commaSeparated {t : Text} {ts : List Text} (h : ∀ u ∈ t :: ts, tokenOk u = true) :
    tokenize (t ++ ts.flatMap fun u => ',' :: ' ' :: u) = t :: ts := by
  induction ts generalizing t with
  | nil => simpa using tokenize_token (h t (by simp))
  | cons u us ih =>
    obtain ⟨ht, hus⟩ := List.forall_mem_cons.1 h
    rw [List.flatMap_cons, List.cons_append, tokenize_cut (.inl rfl), tokenize_token ht]
    have hspace := tokenize_cut (.inr rfl : ' ' = ',' ∨ isSeparator ' ' = true) []
    exact congrArg (t :: ·) ((hspace _).trans (ih hus))

theorem tokenize_mnemonic_operands {m : Text} {ts : List Text} (hm : tokenOk m = true)
    (hts : ∀ t ∈ ts, tokenOk t = true) : tokenize (m ++ operandsText ts) = m :: ts := by
  cases ts with
  | nil => simpa [operandsText] using tokenize_token hm
  | cons t ts =>
    rw [operandsText, tokenize_cut (.inr rfl), tokenize_token hm, tokenize_commaSeparated hts]
    rfl

/-! ## The canonical mnemonic is a token and no label marker -/

theorem upper_of_mem_mnemonicText {op : Opcode} {m : Mods} {c : Char} (h : c ∈ mnemonicText op m) :
    'A'.toNat ≤ c.toNat := by
  have hop : ∀ c ∈ opcodeText op, 'A'.toNat ≤ c.toNat := by
    cases op <;> simp [opcodeText]
  have hcond : ∀ k : Cond, ∀ c ∈ condText k, 'A'.toNat ≤ c.toNat := by
    intro k
    cases k <;> simp [condText]
  obtain ⟨setflags, cond⟩ := m
  rcases List.mem_append.1 h with h | h
  · rcases List.mem_append.1 h with h | h
    · exact hop c h
    · cases setflags with
      | false => simp at h
      | true => rw [List.mem_singleton.1 h]; decide
  · cases cond with
    | none => simp at h
    | some k => exact hcond k c h

theorem mnemonicText_tokenOk (op : Opcode) (m : Mods) : tokenOk (mnemonicText op m) = true := by
  refine tokenOk_of_comma_lt ?_ fun c hc => ?_
  · cases op <;> simp [mnemonicText, opcodeText]
  · exact lt_of_lt_of_le (by decide) (upper_of_mem_mnemonicText hc)

theorem mnemonicText_getLast?_ne_colon (op : Opcode) (m : Mods) :
    (mnemonicText op m).getLast? ≠ some ':' :=
  fun h => absurd (upper_of_mem_mnemonicText (List.mem_of_getLast? h)) (by decide)

/-! ## What a line decodes to -/

theorem decode_eq_skip_iff (line : Text) :
    decode line = .skip ↔
      tokenize line = [] ∨ ∃ t rest, tokenize line = (t ++ [':']) :: rest := by
  unfold decode
  cases htok : tokenize line with
  | nil => simp
  | cons t rest =>
    by_cases hc : t.getLast? = some ':'
    · obtain ⟨u, rfl⟩ := List.getLast?_eq_some_iff.1 hc
      simp
    · simp only [if_neg hc]
      refine iff_of_false nofun ?_
      rintro (h | ⟨u, rest', h⟩)
      · cases h
      · cases h
        exact hc (by simp)

theorem decode_eq_op_iff (line : Text) (b : Base) (m : Mods) (ops : List Text) :
    decode line = .op b m ops ↔
      ∃ t, tokenize line = t :: ops ∧ t.getLast? ≠ some ':' ∧ splitMnemonic t = (b, m) := by
  unfold decode
  cases htok : tokenize line with
  | nil => simp
  | cons t rest =>
    by_cases hc : t.getLast? = some ':'
    · simp [hc]
    · simp only [if_neg hc]
      constructor
      · rintro ⟨⟩
        exact ⟨t, rfl, hc, rfl⟩
      · rintro ⟨u, hu, -, hsplit⟩
        cases hu
        rw [hsplit]

theorem ne_nil_of_decode_op {line : Text} {b : Base} {m : Mods} {ops : List Text}
    (h : decode line = .op b m ops) : line ≠ [] := by
  rintro rfl
  exact absurd h nofun

theorem decodeLine_of_skip {line : Text} (hne : line ≠ []) (h : decode line = .skip) :
    decodeLine line = .ok .skip := by
  simp [decodeLine, hne, h]

theorem decodeLine_of_unknown {line name : Text} {m : Mods} {ops : List Text}
    (h : decode line = .op (.unknown name) m ops) : decodeLine line = .ok (.unknown m name) := by
  simp [decodeLine, ne_nil_of_decode_op h, h]

theorem decodeLine_eq_instr_iff (line : Text) (i : Instr) :
    decodeLine line = .ok (.instr i) ↔
      ∃ op m ops, decode line = .op (.known op) m ops ∧ fillSlots op m ops = .ok i := by
  constructor
  · intro h
    unfold decodeLine at h
    split at h
    · cases h
    · split at h
      · cases h
      · cases h
      · rename_i op m ops hd
        obtain ⟨j, hj, hij⟩ := except_map_ok.1 h
        cases hij
        exact ⟨op, m, ops, hd, hj⟩
  · rintro ⟨op, m, ops, hd, hfill⟩
    simp [decodeLine, ne_nil_of_decode_op hd, hd, hfill, Except.map]

/-! ## The operand slots, read back from an instruction's own tokens -/

theorem valueOk_iff (a : Option Text) : valueOk a = true ↔ ∀ t ∈ a.toList, tokenOk t = true := by
  cases a <;> simp [valueOk]

theorem valuesOk_iff (a b : Option Text) :
    valuesOk a b = true ↔
      (∀ t ∈ a.toList ++ b.toList, tokenOk t = true) ∧ (a = none → b = none) := by
  cases a <;> cases b <;> simp [valuesOk, valueOk]

/-- Two value slots, the first filled first, are read back by position (R91). -/
theorem values_getElem? {a b : Option Text} (h : a = none → b = none) :
    (a.toList ++ b.toList)[0]? = a ∧ (a.toList ++ b.toList)[1]? = b := by
  cases a with
  | none => simp [h rfl]
  | some a => cases b <;> simp

theorem RegToken.wf_iff (r : RegToken) : r.wf = true ↔ tokenOk r.text = true := Iff.rfl

theorem MemToken.wf_iff (mem : MemToken) :
    mem.wf = true ↔
      tokenOk mem.text = true ∧ '[' ∉ mem.base.index ∧ ']' ∉ mem.base.index := by
  have htext : tokenOk mem.text = true ↔ tokenOk mem.base.text = true := by
    have hopen : isSeparator '[' = false := rfl
    have hclose : isSeparator ']' = false := rfl
    simp [tokenOk_iff, MemToken.text, RegToken.text, or_imp, forall_and, hopen, hclose]
  have hbrackets : (mem.base.index.all fun c => !(decide (c = '[') || decide (c = ']'))) = true ↔
      '[' ∉ mem.base.index ∧ ']' ∉ mem.base.index := by
    simp only [List.all_eq_true, Bool.not_eq_true', Bool.or_eq_false_iff, decide_eq_false_iff_not]
    exact ⟨fun h => ⟨fun hm => (h _ hm).1 rfl, fun hm => (h _ hm).2 rfl⟩,
      fun h c hc => ⟨fun he => h.1 (he ▸ hc), fun he => h.2 (he ▸ hc)⟩⟩
  rw [MemToken.wf, Bool.and_eq_true, hbrackets, RegToken.wf, htext]

theorem Instr.operands_tokenOk {i : Instr} (h : i.wf = true) :
    ∀ t ∈ i.operands, tokenOk t = true := by
  cases i with
  | mov m rd a | mvn m rd a =>
    obtain ⟨hrd, ha⟩ := Bool.and_eq_true_iff.1 h
    exact List.forall_mem_cons.2 ⟨rd.wf_iff.1 hrd, (valueOk_iff a).1 ha⟩
  | cmp m a b => exact ((valuesOk_iff a b).1 h).1
  | add m rd a b | sub m rd a b | and m rd a b | orr m rd a b | eor m rd a b
  | lsl m rd a b | lsr m rd a b | asr m rd a b | ror m rd a b =>
    obtain ⟨hrd, hab⟩ := Bool.and_eq_true_iff.1 h
    exact List.forall_mem_cons.2 ⟨rd.wf_iff.1 hrd, ((valuesOk_iff a b).1 hab).1⟩
  | ldr m rd base | str m rd base =>
    obtain ⟨hrd, hbase⟩ := Bool.and_eq_true_iff.1 h
    obtain ⟨htext, -⟩ := base.wf_iff.1 hbase
    exact List.forall_mem_cons.2 ⟨rd.wf_iff.1 hrd, List.forall_mem_singleton.2 htext⟩
  | beq m label => exact List.forall_mem_singleton.2 h
  | nop m => exact List.forall_mem_nil _

theorem Instr.operands_length_le (i : Instr) : i.operands.length ≤ maxOperands i.opcode := by
  have hvalue : ∀ a : Option Text, a.toList.length ≤ 1 := by
    intro a
    cases a <;> simp
  cases i with
  | mov m rd a | mvn m rd a => exact Nat.succ_le_succ (hvalue a)
  | cmp m a b =>
    exact List.length_append ▸ Nat.add_le_add (hvalue a) (hvalue b)
  | add m rd a b | sub m rd a b | and m rd a b | orr m rd a b | eor m rd a b
  | lsl m rd a b | lsr m rd a b | asr m rd a b | ror m rd a b =>
    exact Nat.succ_le_succ (List.length_append ▸ Nat.add_le_add (hvalue a) (hvalue b))
  | ldr m rd base | str m rd base => exact le_rfl
  | beq m label => exact le_rfl
  | nop m => exact le_rfl

theorem readSlots_operands {i : Instr} (h : i.wf = true) :
    readSlots i.opcode i.mods i.operands = .ok i := by
  cases i with
  | mov m rd a | mvn m rd a => cases a <;> rfl
  | cmp m a b =>
    obtain ⟨h0, h1⟩ := values_getElem? ((valuesOk_iff a b).1 h).2
    simp only [Instr.opcode, Instr.mods, Instr.operands, readSlots, h0, h1]
  | add m rd a b | sub m rd a b | and m rd a b | orr m rd a b | eor m rd a b
  | lsl m rd a b | lsr m rd a b | asr m rd a b | ror m rd a b =>
    obtain ⟨-, hab⟩ := Bool.and_eq_true_iff.1 h
    obtain ⟨h1, h2⟩ := values_getElem? ((valuesOk_iff a b).1 hab).2
    simp only [Instr.opcode, Instr.mods, Instr.operands, readSlots, List.getElem?_cons_zero,
      List.getElem?_cons_succ, designatorSlot_text, Except.map, h1, h2]
  | ldr m rd base | str m rd base =>
    obtain ⟨-, hbase⟩ := Bool.and_eq_true_iff.1 h
    obtain ⟨-, hbrackets⟩ := base.wf_iff.1 hbase
    have hmem : memSlot (some base.text) = .ok base := memSlot_ok.2 ⟨rfl, hbrackets⟩
    simp only [Instr.opcode, Instr.mods, Instr.operands, readSlots, List.getElem?_cons_zero,
      List.getElem?_cons_succ, designatorSlot_text, Except.map, Except.bind, hmem]
  | beq m label => rfl
  | nop m => rfl

theorem fillSlots_of_readSlots {op : Opcode} {m : Mods} {ops : List Text} {i : Instr}
    (h : readSlots op m ops = .ok i) (hlen : ops.length ≤ maxOperands op) :
    fillSlots op m ops = .ok i := by
  rw [fillSlots, h]
  exact if_neg (Nat.not_lt.2 hlen)

theorem readSlots_of_fillSlots {op : Opcode} {m : Mods} {ops : List Text} {i : Instr}
    (h : fillSlots op m ops = .ok i) : readSlots op m ops = .ok i := by
  obtain ⟨j, hj, hij⟩ := except_bind_ok.1 h
  split at hij
  · cases hij
  · cases hij
    exact hj

/-- Settles O5: the canonical line is cut into its mnemonic and operands, the mnemonic reads back
(`splitMnemonic_mnemonicText`), and so do the slots (`readSlots_operands`). -/
theorem decodeReadsBackEncode : Obligations.DecodeReadsBackEncode := by
  intro i hwf
  have htokens : tokenize (encode i) = mnemonicText i.opcode i.mods :: i.operands :=
    tokenize_mnemonic_operands (mnemonicText_tokenOk _ _) (Instr.operands_tokenOk hwf)
  have hdecode : decode (encode i) = .op (.known i.opcode) i.mods i.operands :=
    (decode_eq_op_iff _ _ _ _).2
      ⟨_, htokens, mnemonicText_getLast?_ne_colon _ _, splitMnemonic_mnemonicText _ _⟩
  exact (decodeLine_eq_instr_iff _ i).2
    ⟨_, _, _, hdecode, fillSlots_of_readSlots (readSlots_operands hwf) i.operands_length_le⟩

/-! ## The slots that a line's tokens fill hold well-formed operands -/

section
variable {ops : List Text} (hops : ∀ t ∈ ops, tokenOk t = true)
include hops

theorem valueOk_getElem? (k : Nat) : valueOk ops[k]? = true :=
  (valueOk_iff _).2 fun t ht => hops t (List.mem_of_getElem? (Option.mem_toList.1 ht))

theorem valuesOk_getElem? (k : Nat) : valuesOk ops[k]? ops[k + 1]? = true := by
  refine (valuesOk_iff _ _).2 ⟨fun t ht => ?_, fun hnone => ?_⟩
  · rcases List.mem_append.1 ht with ht | ht
    · exact (valueOk_iff _).1 (valueOk_getElem? hops k) t ht
    · exact (valueOk_iff _).1 (valueOk_getElem? hops (k + 1)) t ht
  · exact List.getElem?_eq_none (Nat.le_succ_of_le (List.getElem?_eq_none_iff.1 hnone))

theorem RegToken.wf_of_slot {k : Nat} {rd : RegToken} (h : designatorSlot ops[k]? = .ok rd) :
    rd.wf = true :=
  rd.wf_iff.2 (hops _ (List.mem_of_getElem? (designatorSlot_ok.1 h)))

theorem MemToken.wf_of_slot {k : Nat} {mem : MemToken} (h : memSlot ops[k]? = .ok mem) :
    mem.wf = true := by
  obtain ⟨htext, hbrackets⟩ := memSlot_ok.1 h
  exact mem.wf_iff.2 ⟨hops _ (List.mem_of_getElem? htext), hbrackets⟩

theorem Instr.wf_of_readSlots {op : Opcode} {m : Mods} {i : Instr} (h : readSlots op m ops = .ok i) :
    i.wf = true := by
  cases op with
  | mov | mvn =>
    obtain ⟨rd, hrd, rfl⟩ := except_map_ok.1 h
    exact Bool.and_eq_true_iff.2 ⟨RegToken.wf_of_slot hops hrd, valueOk_getElem? hops 1⟩
  | cmp =>
    cases h
    exact valuesOk_getElem? hops 0
  | add | sub | and | orr | eor | lsl | lsr | asr | ror =>
    obtain ⟨rd, hrd, rfl⟩ := except_map_ok.1 h
    exact Bool.and_eq_true_iff.2 ⟨RegToken.wf_of_slot hops hrd, valuesOk_getElem? hops 1⟩
  | ldr | str =>
    obtain ⟨rd, hrd, hbase⟩ := except_bind_ok.1 h
    obtain ⟨base, hmem, rfl⟩ := except_map_ok.1 hbase
    exact Bool.and_eq_true_iff.2 ⟨RegToken.wf_of_slot hops hrd, MemToken.wf_of_slot hops hmem⟩
  | beq =>
    obtain ⟨label, hlabel, rfl⟩ := except_map_ok.1 h
    exact hops _ (List.mem_of_getElem? (labelSlot_ok.1 hlabel))
  | nop =>
    cases h
    rfl

end

/-- Settles O6: the tokens of a line are tokens (`tokenOk_of_mem_tokenize`), and slots filled from tokens
are well-formed (`Instr.wf_of_readSlots`). -/
theorem decodedInstructionIsWellFormed : Obligations.DecodedInstructionIsWellFormed := by
  intro line i h
  obtain ⟨op, m, ops, hdecode, hfill⟩ := (decodeLine_eq_instr_iff line i).1 h
  obtain ⟨t, htokens, -, -⟩ := (decode_eq_op_iff _ _ _ _).1 hdecode
  have hops : ∀ u ∈ ops, tokenOk u = true := fun u hu =>
    tokenOk_of_mem_tokenize (htokens ▸ List.mem_cons_of_mem t hu)
  exact Instr.wf_of_readSlots hops (readSlots_of_fillSlots hfill)

end Sys2Proof
end

section
/-! PROOFS of 30_encoding.md, the Operand Resolver. What a text of digits is worth, said once for both bases
(`ReadsDigits`), then register indices (R107), immediates (R109, R110) and value operands (R104). -/

namespace Sys2Proof.Machine

/-! ## Digits -/

/-- A decimal digit (R107, R109). -/
abbrev IsDecDigit (c : Char) : Prop := '0'.toNat ≤ c.toNat ∧ c.toNat ≤ '9'.toNat

/-- A hexadecimal digit of either case (R109). -/
def IsHexDigit (c : Char) : Prop :=
  IsDecDigit c ∨ ('a'.toNat ≤ c.toNat ∧ c.toNat ≤ 'f'.toNat) ∨
    ('A'.toNat ≤ c.toNat ∧ c.toNat ≤ 'F'.toNat)

/-- The value of a digit, decimal or hexadecimal (R109). -/
def digitValue (c : Char) : Nat :=
  if c.toNat ≤ '9'.toNat then c.toNat - '0'.toNat
  else if c.toNat ≤ 'F'.toNat then c.toNat - 'A'.toNat + 10 else c.toNat - 'a'.toNat + 10

/-- `digit` reads the characters `isDigit` names, each at its `value`, and no others. -/
structure ReadsDigits (digit : Char → Option Nat) (isDigit : Char → Prop) (value : Char → Nat) :
    Prop where
  reads : ∀ {c}, isDigit c → digit c = some (value c)
  rejects : ∀ {c}, ¬ isDigit c → digit c = none

theorem decDigit_readsDigits : ReadsDigits decDigit IsDecDigit fun c => c.toNat - '0'.toNat where
  reads h := if_pos h
  rejects h := if_neg h

theorem decDigit_readsDigits_digitValue : ReadsDigits decDigit IsDecDigit digitValue where
  reads h := (decDigit_readsDigits.reads h).trans (congrArg some (if_pos h.2).symm)
  rejects := decDigit_readsDigits.rejects

theorem hexDigit_readsDigits : ReadsDigits hexDigit IsHexDigit digitValue where
  reads {c} h := by
    unfold hexDigit digitValue
    simp only [IsHexDigit, IsDecDigit, Char.reduceToNat] at h ⊢
    rcases h with h | h | h
    · rw [if_pos h, if_pos h.2]
    · rw [if_neg (by omega), if_pos h, if_neg (by omega), if_neg (by omega)]
    · rw [if_neg (by omega), if_neg (by omega), if_pos h, if_neg (by omega), if_pos h.2]
  rejects h := by
    obtain ⟨hdec, hletter⟩ := not_or.1 h
    obtain ⟨hlower, hupper⟩ := not_or.1 hletter
    exact (if_neg hdec).trans ((if_neg hlower).trans (if_neg hupper))

section
variable {digit : Char → Option Nat} {isDigit : Char → Prop} {value : Char → Nat}

theorem ReadsDigits.readNumber_eq (h : ReadsDigits digit isDigit value) {base : Nat} {t : Text}
    (ht : t ≠ [] ∧ ∀ c ∈ t, isDigit c) :
    readNumber base digit t = some (t.foldl (fun n c => base * n + value c) 0) := by
  rw [readNumber, if_neg ht.1]
  exact readDigits_digits (fun c hc => h.reads (ht.2 c hc)) 0

theorem ReadsDigits.readNumber_none (h : ReadsDigits digit isDigit value) {base : Nat} {t : Text}
    (ht : ¬ (t ≠ [] ∧ ∀ c ∈ t, isDigit c)) : readNumber base digit t = none := by
  by_cases hne : t = []
  · exact if_pos hne
  · obtain ⟨c, hc, hnot⟩ : ∃ c ∈ t, ¬ isDigit c := by simpa [hne] using ht
    rw [readNumber, if_neg hne]
    exact readDigits_none ⟨c, hc, h.rejects hnot⟩ 0

end

/-! ## Immediates -/

theorem dropHash_eq (t : Text) : dropHash t = if t.head? = some '#' then t.tail else t := by
  unfold dropHash
  split
  · rfl
  · rename_i hno
    rw [if_neg]
    intro hhead
    obtain ⟨u, rfl⟩ := List.head?_eq_some_iff.1 hhead
    exact hno u rfl

theorem immNumber_of_hex {t u : Text} (h : dropHash t = '0' :: 'x' :: u) :
    immNumber t = readNumber 16 hexDigit u := by
  simp only [immNumber, h]

theorem immNumber_of_not_hex {t : Text} (h : ¬ ∃ u, dropHash t = '0' :: 'x' :: u) :
    immNumber t = readNumber 10 decDigit (dropHash t) := by
  unfold immNumber
  split
  · exact absurd ⟨_, ‹_›⟩ h
  · rfl

theorem immValue_of_number {t : Text} {v : Nat} (h : immNumber t = some v) :
    immValue t = if v ≤ 0xFFFFFFFF then .ok (BitVec.ofNat 32 v) else .error (.parseError t) := by
  rw [immValue, h]

theorem immValue_of_no_number {t : Text} (h : immNumber t = none) :
    immValue t = .error (.parseError t) := by
  rw [immValue, h]

/-- The number's digits and the bound decide an immediate, in either base (R109). -/
theorem ReadsDigits.immValue_eq {digit : Char → Option Nat} {isDigit : Char → Prop}
    {value : Char → Nat} (h : ReadsDigits digit isDigit value) {base : Nat} {token u : Text} {v : Nat}
    (hnum : immNumber token = readNumber base digit u)
    (hv : u.foldl (fun n c => base * n + value c) 0 = v) :
    (u ≠ [] ∧ (∀ c ∈ u, isDigit c) ∧ v ≤ 0xFFFFFFFF → immValue token = .ok (BitVec.ofNat 32 v)) ∧
    (¬ (u ≠ [] ∧ (∀ c ∈ u, isDigit c) ∧ v ≤ 0xFFFFFFFF) →
      immValue token = .error (.parseError token)) := by
  subst hv
  rw [← and_assoc]
  by_cases hu : u ≠ [] ∧ ∀ c ∈ u, isDigit c
  · rw [immValue_of_number (hnum.trans (h.readNumber_eq hu))]
    exact ⟨fun hle => if_pos hle.2, fun hgt => if_neg fun hle => hgt ⟨hu, hle⟩⟩
  · rw [immValue_of_no_number (hnum.trans (h.readNumber_none hu))]
    exact ⟨fun hle => absurd hle.1 hu, fun _ => rfl⟩

/-- Settles O11: after `0x` the number is hexadecimal, otherwise decimal, and `ReadsDigits.immValue_eq`
decides both. -/
theorem immediateParse : Obligations.ImmediateParse := by
  intro token
  rw [← dropHash_eq token]
  exact ⟨fun u hu => hexDigit_readsDigits.immValue_eq (immNumber_of_hex hu) rfl,
    fun hno => decDigit_readsDigits_digitValue.immValue_eq (immNumber_of_not_hex hno) rfl⟩

/-! ## Register indices -/

/-- A token that begins with `r` spells no number (R107). -/
theorem immValue_lower_r (r : Text) : immValue ('r' :: r) = .error (.parseError ('r' :: r)) := by
  have hnone : readNumber 10 decDigit ('r' :: r) = none :=
    decDigit_readsDigits.readNumber_none fun h =>
      absurd (h.2 'r' List.mem_cons_self) (by decide)
  have hnothex : ¬ ∃ u, dropHash ('r' :: r) = '0' :: 'x' :: u := by
    rintro ⟨u, hu⟩
    cases hu
  exact immValue_of_no_number ((immNumber_of_not_hex hnothex).trans hnone)

/-- Settles O10: the index is the number its decimal digits spell, and no other text has one. -/
theorem registerIndexParse : Obligations.RegisterIndexParse := by
  intro r digits i
  have hindex : digits → readNumber 10 decDigit r = some i := decDigit_readsDigits.readNumber_eq
  refine ⟨fun hd hlt => regIndex_ok.2 (hindex hd), fun hd hge => ?_, fun hd => ?_, fun s => ?_⟩
  · simp only [regIndex, hindex hd]
    exact dif_neg (Nat.not_lt.2 hge)
  · have hnone : readNumber 10 decDigit r = none := decDigit_readsDigits.readNumber_none hd
    simp only [regIndex, hnone, RegToken.text]
  · rw [resolve_imm s (List.cons_ne_nil 'r' r) (by simp), immValue_lower_r]

/-! ## Value operands -/

/-- Settles O12: the order of R104, absent or empty, then `R...`, then an immediate. -/
theorem valueOperandResolution : Obligations.ValueOperandResolution := by
  refine fun s => ⟨resolve_none s, rfl, fun r i hi => ?_, fun r f hf => ?_, fun t => resolve_imm s⟩
  · rw [resolve_reg, hi]
    rfl
  · rw [resolve_reg, hf]
    rfl

/-! ## Every word has a token -/

/-- Core's decimal spelling of a number is made of decimal digits. -/
theorem isDecDigit_of_mem_toDigits {n : Nat} {c : Char} (h : c ∈ Nat.toDigits 10 n) :
    IsDecDigit c := by
  have hdigit := Nat.isDigit_of_mem_toDigits (by decide) le_rfl h
  simpa [Char.isDigit, IsDecDigit, UInt32.le_iff_toNat_le] using hdigit

theorem tokenOk_of_isDecDigit {t : Text} (hne : t ≠ []) (h : ∀ c ∈ t, IsDecDigit c) :
    tokenOk t = true :=
  tokenOk_of_comma_lt hne fun c hc => lt_of_lt_of_le (by decide) (h c hc).1

theorem head?_ne_of_isDecDigit {t : Text} (h : ∀ c ∈ t, IsDecDigit c) {c : Char}
    (hc : ¬ IsDecDigit c) : t.head? ≠ some c :=
  fun hhead => hc (h c (List.mem_of_mem_head? hhead))

theorem immNumber_of_isDecDigit {t : Text} (h : ∀ c ∈ t, IsDecDigit c) :
    immNumber t = readNumber 10 decDigit t := by
  have hdrop : dropHash t = t :=
    (dropHash_eq t).trans (if_neg (head?_ne_of_isDecDigit h (by decide)))
  have hnothex : ¬ ∃ u, dropHash t = '0' :: 'x' :: u := by
    rintro ⟨u, hu⟩
    rw [hdrop] at hu
    subst hu
    exact absurd (h 'x' (by simp)) (by decide)
  exact (immNumber_of_not_hex hnothex).trans (by rw [hdrop])

theorem immValue_toDigits (v : Word) : immValue (Nat.toDigits 10 v.toNat) = .ok v := by
  have hdigits : ∀ c ∈ Nat.toDigits 10 v.toNat, IsDecDigit c := fun _ => isDecDigit_of_mem_toDigits
  have hvalue := Nat.ofDigitChars_ten_toDigits (n := v.toNat)
  have heq := (decDigit_readsDigits.immValue_eq (immNumber_of_isDecDigit hdigits) hvalue).1
    ⟨Nat.toDigits_ne_nil, hdigits, Nat.le_of_lt_succ v.isLt⟩
  rw [heq, BitVec.ofNat_toNat, BitVec.setWidth_eq]

/-- Settles O13: the word's decimal digits are such a token. -/
theorem everyWordIsAnImmediate : Obligations.EveryWordIsAnImmediate := by
  intro s v
  have hdigits : ∀ c ∈ Nat.toDigits 10 v.toNat, IsDecDigit c := fun _ => isDecDigit_of_mem_toDigits
  have hR : (Nat.toDigits 10 v.toNat).head? ≠ some 'R' :=
    head?_ne_of_isDecDigit hdigits (by decide)
  exact ⟨Nat.toDigits 10 v.toNat, tokenOk_of_isDecDigit Nat.toDigits_ne_nil hdigits, hR,
    (resolve_imm s Nat.toDigits_ne_nil hR).trans (immValue_toDigits v)⟩

end Sys2Proof.Machine
end

section
/-! PROOFS of 30_encoding.md, lines in a step. The mnemonic table (R103), lines written out, the refusal of a
program that is not well-formed (R125), and the lines that run none of the sixteen instructions (R97, R98,
R118). -/

namespace Sys2Proof

/-- Settles O7: eleven rows are canonical mnemonics and read back by `splitMnemonic_mnemonicText`; the rest are
evaluated. -/
theorem mnemonicTableDecodes : Obligations.MnemonicTableDecodes :=
  ⟨splitMnemonic_mnemonicText .mov ⟨false, none⟩,
   splitMnemonic_mnemonicText .mov ⟨true, none⟩,
   splitMnemonic_mnemonicText .mov ⟨false, some .eq⟩,
   splitMnemonic_mnemonicText .add ⟨true, some .gt⟩,
   rfl,
   splitMnemonic_mnemonicText .cmp ⟨true, none⟩,
   splitMnemonic_mnemonicText .lsl ⟨false, some .le⟩,
   splitMnemonic_mnemonicText .nop ⟨false, some .eq⟩,
   splitMnemonic_mnemonicText .beq ⟨false, none⟩,
   splitMnemonic_mnemonicText .beq ⟨true, none⟩,
   splitMnemonic_mnemonicText .beq ⟨false, some .eq⟩,
   splitMnemonic_mnemonicText .beq ⟨false, some .ne⟩,
   rfl, rfl, rfl, rfl, rfl, rfl, rfl, rfl, rfl, rfl⟩

/-- Settles O8: four of the lines are canonical and read back by `decodeReadsBackEncode`; the tab, the doubled
comma, the missing commas and the missing space of the others are evaluated. -/
theorem sampleLinesDecode : Obligations.SampleLinesDecode :=
  ⟨decodeReadsBackEncode (.mvn ⟨true, none⟩ ⟨['1']⟩ (some ['#', '0'])) rfl,
   decodeReadsBackEncode (.cmp ⟨false, none⟩ (some ['R', '0']) none) rfl,
   rfl, rfl, rfl,
   decodeReadsBackEncode (.beq ⟨false, some .ne⟩ ['d', 'o', 'n', 'e']) rfl,
   decodeReadsBackEncode (.nop ⟨false, none⟩) rfl⟩

namespace Machine

/-! ## Refusal -/

theorem exec_is_next (i : Instr) (s : State) : ∃ t, exec i s = .next t :=
  ⟨_, exec_eq_perform i s⟩

/-- A running machine with a well-formed program takes a step: it completes, or its line is one that the
decoder does not refuse. -/
theorem step_is_next {s : State} (hs : s.status = .running) (hok : ProgramOk s.prog s.labels) :
    ∃ t, step s = .next t := by
  have hp := (programProblem_none_iff s.prog s.labels).2 hok
  cases hl : s.prog[s.pc]? with
  | none => exact ⟨_, step_of_end hs hp hl⟩
  | some line =>
    obtain ⟨-, hlines, -, -⟩ := hok
    obtain ⟨l, hd⟩ := (decodeLine_ok_iff line).2 (hlines line (List.mem_of_getElem? hl))
    rw [step_of_line hs hp hl, hd]
    cases l with
    | skip => exact ⟨_, runSkip_eq s⟩
    | unknown m name => exact ⟨_, runUnknown_eq m s⟩
    | instr i => exact exec_is_next i s

/-- Settles O49: the decoder's check finds a problem exactly where `ProgramOk` fails
(`programProblem_none_iff`), and where it finds none the step answers a next state. -/
theorem refusedExactlyWhenIllFormed : Obligations.RefusedExactlyWhenIllFormed := by
  refine fun s hs => ⟨⟨?_, fun hbad => ?_⟩, step_is_next hs⟩
  · rintro ⟨why, hrefused⟩ hok
    obtain ⟨t, hnext⟩ := step_is_next hs hok
    cases hrefused.symm.trans hnext
  · cases hp : programProblem s.prog s.labels with
    | none => exact absurd ((programProblem_none_iff s.prog s.labels).1 hp) hbad
    | some why => exact ⟨why, step_of_problem hs hp⟩

/-! ## Lines that run none of the sixteen instructions -/

/-- Settles O45: such a line decodes to a skip, and a skip is retired. -/
theorem skipLineIsNoOp : Obligations.SkipLineIsNoOp := by
  intro s line hs hok hl htokens
  have hp := (programProblem_none_iff s.prog s.labels).2 hok
  obtain ⟨-, hlines, -, -⟩ := hok
  obtain ⟨hne, -⟩ := hlines line (List.mem_of_getElem? hl)
  have hdecode := decodeLine_of_skip hne ((decode_eq_skip_iff line).2 htokens)
  rw [step_of_line hs hp hl, hdecode]
  exact runSkip_eq s

/-- Settles O46: such a line decodes to `Line.unknown`, whose operands are dropped already. -/
theorem unknownInstructionRaises : Obligations.UnknownInstructionRaises := by
  intro s line name m operands hs hok hl hdecode
  rw [step_of_line hs ((programProblem_none_iff _ _).2 hok) hl, decodeLine_of_unknown hdecode]
  exact runUnknown_eq m s

end Machine

end Sys2Proof
end

section
/-! PROOFS of 40_dispatch.md. The condition gate (R144 to R147), the step that runs a decoded line and the
runs that have no step (R140 to R143, R154 to R158), the report of every instruction that does not abort and
how many of them a run holds (R150 to R153), and an instruction that fails no check (R149). -/

namespace Sys2Proof.Machine

/-! ## The condition gate -/

/-- Settles O14: a row of R144's table for each condition, then C, which no row reads. -/
theorem conditionTruthTable : Obligations.ConditionTruthTable := by
  intro f
  refine ⟨condHolds_none f, Iff.rfl, ?_, ?_, ?_, ?_, ?_, fun c b => ?carry⟩
  case carry =>
    cases c with
    | none => rfl
    | some c => cases c <;> rfl
  all_goals simp [condHolds, condTest]

/-- Settles O15: every instruction, and every unknown line, is a body behind the gate. -/
theorem falseConditionSkips : Obligations.FalseConditionSkips :=
  ⟨fun i s h => (exec_eq_perform i s).trans (perform_of_not h _), fun _ _ h => perform_of_not h _⟩

theorem condText_mem_codes (c : Cond) : condText c ∈ conds.map condText := by
  cases c <;> decide

theorem readCond_eq_none {t : Text} (h : t ∉ conds.map condText) : readCond t = none := by
  cases hr : readCond t with
  | none => rfl
  | some c => exact absurd (readCond_eq_some.1 hr ▸ condText_mem_codes c) h

/-- Settles O56: a text that is no code reads as no condition, and a decoded suffix is the code of its
condition. -/
theorem otherSuffixNeverHolds : Obligations.OtherSuffixNeverHolds := by
  refine ⟨fun t f ht => ?_, fun line b m operands f _ => ⟨fun t ht => ?_, ?_⟩⟩
  · rw [condHoldsText, readCond_eq_none ht]
  · obtain ⟨c, -, rfl⟩ := Option.map_eq_some_iff.1 ht
    exact condText_mem_codes c
  · exact condHoldsText_condText m.cond f

/-! ## What a step runs, and where a run ends -/

/-- Settles O44: a well-formed program passes the decoder's check, and the line is dispatched. -/
theorem stepRunsDecodedInstruction : Obligations.StepRunsDecodedInstruction := by
  intro s line i hs hok hl hd
  rw [step_of_line hs ((programProblem_none_iff _ _).2 hok) hl, hd]

theorem step_of_completed {s : State} (h : s.status = .completed) :
    step s = .fault .runCompleted := by
  rw [step, fetch, h]

theorem step_of_aborted {s : State} {token : Text} (h : s.status = .aborted token) :
    step s = .fault (.runAborted token) := by
  rw [step, fetch, h]

/-- Settles O48: the status is looked at before the program. -/
theorem endedRunHasNoStep : Obligations.EndedRunHasNoStep :=
  fun _ => ⟨step_of_completed, fun _ => step_of_aborted⟩

/-- Settles O47: past the last line no line is fetched, and of the outcomes in `step_pc_cases` one is
completed. -/
theorem runCompletesAtTheEnd : Obligations.RunCompletesAtTheEnd := by
  refine ⟨fun s hs hok hend => ?_, fun s t h ht => ?_⟩
  · exact step_of_end hs ((programProblem_none_iff _ _).2 hok) (List.getElem?_eq_none hend)
  · rcases step_pc_cases h with ⟨hend, -⟩ | ⟨line, -, ⟨hrun, -⟩ | ⟨hrun, -⟩ | ⟨token, rfl⟩⟩
    · exact hend
    · cases hrun.symm.trans ht
    · cases hrun.symm.trans ht
    · cases ht

/-! ## The report of an instruction -/

/-- From `s` to `t` an instruction of text `line` has emitted its report of `t` (R150), alone or behind one
error event, which leaves the data as it was and goes on to the next line (R152, R153). -/
def Reported (line : Text) (s t : State) : Prop :=
  t.trace = s.trace ++ [.report line t.x t.flags t.mem] ∨
  ∃ kind message,
    t.trace = s.trace ++ [.error kind message line, .report line t.x t.flags t.mem] ∧
    t.x = s.x ∧ t.flags = s.flags ∧ t.mem = s.mem ∧ t.pc = s.pc + 1

theorem retired_reported (s : State) (x : Vector Word 12) (flags : Flags) (mem : Memory) :
    Reported s.line s (s.retired x flags mem) :=
  .inl (s.retired_trace x flags mem)

theorem errored_reported (s : State) (kind : ErrorKind) (message : Text) :
    Reported s.line s (s.errored kind message) :=
  .inr ⟨kind, message, s.errored_trace kind message, rfl, rfl, rfl, rfl⟩

/-- An instruction reports and leaves the status, or aborts the run and leaves all else. -/
theorem exec_reported {i : Instr} {s t : State} (h : exec i s = .next t) :
    (t.status = s.status ∧ Reported s.line s t) ∨
    (∃ token, t = { s with status := .aborted token }) := by
  rcases exec_cases h with ⟨x, flags, mem, rfl⟩ | ⟨m, label, k, -, -, -, -, rfl⟩ |
    ⟨kind, message, n, rfl⟩ | haborted
  · exact .inl ⟨rfl, retired_reported s x flags mem⟩
  · exact .inl ⟨rfl, .inl rfl⟩
  · exact .inl ⟨rfl, errored_reported s kind message⟩
  · exact .inr haborted

/-- A step reports the line at the pc and the run goes on, or it ends the run and leaves all else. -/
theorem step_reported {s t : State} (h : step s = .next t) :
    (t.status = .running ∧ ∃ line, s.prog[s.pc]? = some line ∧ Reported line s t) ∨
    (t.status ≠ .running ∧ ∃ status, t = { s with status := status }) := by
  obtain ⟨hs, -, ⟨-, rfl⟩ | ⟨line, hl, hline⟩⟩ := step_cases h
  · exact .inr ⟨nofun, _, rfl⟩
  · obtain rfl : s.line = line := State.line_of_get hl
    rcases hline with ⟨-, rfl⟩ | ⟨m, name, -, rfl | rfl⟩ | ⟨i, -, hexec⟩
    · exact .inl ⟨hs, _, hl, retired_reported s s.x s.flags s.mem⟩
    · exact .inl ⟨hs, _, hl, errored_reported s .invalidArgument unknownMessage⟩
    · exact .inl ⟨hs, _, hl, retired_reported s s.x s.flags s.mem⟩
    · rcases exec_reported hexec with ⟨ht, hrep⟩ | ⟨token, rfl⟩
      · exact .inl ⟨ht.trans hs, _, hl, hrep⟩
      · exact .inr ⟨nofun, _, rfl⟩

/-- Settles O51: the two outcomes of `step_reported`. -/
theorem oneReportPerInstruction : Obligations.OneReportPerInstruction := by
  intro s t h
  rcases step_reported h with ⟨ht, hrep⟩ | ⟨ht, status, rfl⟩
  · exact ⟨fun _ => hrep, fun hne => absurd ht hne⟩
  · exact ⟨fun hrun => absurd hrun ht, fun _ => ⟨rfl, rfl, rfl, rfl, rfl⟩⟩

/-! ## The reports of a run -/

/-- The number of reports in the trace. -/
def State.reportCount (s : State) : Nat := (s.trace.filter Event.isReport).length

theorem Reported.reportCount_eq {line : Text} {s t : State} (h : Reported line s t) :
    t.reportCount = s.reportCount + 1 := by
  rcases h with htrace | ⟨kind, message, htrace, -⟩ <;>
    simp [State.reportCount, htrace, Event.isReport, List.filter_cons]

/-- A run of `k + 1` steps is a step and a run of `k` steps. -/
theorem run_succ_next {M : Host.Core} {k : Nat} {s t : M.State} (h : M.run (k + 1) s = .next t) :
    ∃ u, M.step s = .next u ∧ M.run k u = .next t := by
  rw [Host.Core.run] at h
  cases hstep : M.step s with
  | next u => exact ⟨u, rfl, by simpa [hstep] using h⟩
  | fault r => simp [hstep] at h
  | refused r => simp [hstep] at h

/-- A run that is still running at its end was running at its start: an ended run takes no step. -/
theorem running_of_run {k : Nat} {s t : State} (h : Host.Core.run Sys2Proof.core k s = .next t)
    (ht : t.status = .running) : s.status = .running := by
  cases k with
  | zero => cases h; exact ht
  | succ k =>
    obtain ⟨u, hstep, -⟩ := run_succ_next h
    obtain ⟨hs, -⟩ := step_cases hstep
    exact hs

/-- Settles O54, by induction on the number of steps: each step of a run that goes on adds one report. -/
theorem reportsCountSteps : Obligations.ReportsCountSteps := by
  intro k
  induction k with
  | zero => intro s t h _; cases h; rfl
  | succ k ih =>
    intro s t h ht
    obtain ⟨u, hstep, hrun⟩ := run_succ_next h
    rcases step_reported hstep with ⟨-, line, -, hrep⟩ | ⟨hu, -⟩
    · calc t.reportCount
        _ = u.reportCount + k := ih u t hrun ht
        _ = s.reportCount + 1 + k := by rw [hrep.reportCount_eq]
        _ = s.reportCount + (k + 1) := by omega
    · exact absurd (running_of_run hrun ht) hu

/-! ## The checks of a body, in order -/

/-- Checks made one after the other: the failure of the first comes before those of the rest. -/
theorem failureOf_bind {α β : Type} {r : Except Failure α} {g : α → Except Failure β}
    {slots : List (Option Failure)} {value : Option Failure}
    (h : ∀ x, r = .ok x → failureOf (g x) = (slots.findSome? id).or value) :
    failureOf (r.bind g) = ((failureOf r :: slots).findSome? id).or value := by
  cases r with
  | error f => rfl
  | ok x => exact h x rfl

theorem failureOf_arith (asked : Bool) (rd : RegToken) (rn op2 : Option Text)
    (compute : Word → Word → Word) (newFlags : Word → Word → Word → Flags) (s : State) :
    failureOf (arith asked rd rn op2 compute newFlags s) =
      ([failureOf (regIndex rd), failureOf (resolve s rn), failureOf (resolve s op2)].findSome?
        id).or none :=
  failureOf_bind fun _ _ => failureOf_bind fun _ _ => failureOf_bind fun _ _ => rfl

theorem failureOf_shift (asked : Bool) (rd : RegToken) (rn amount : Option Text)
    (compute : Word → Nat → Word) (s : State) :
    failureOf (shift asked rd rn amount compute s) =
      ([failureOf (regIndex rd), failureOf (resolve s rn), failureOf (resolve s amount)].findSome?
        id).or (amountFailure s amount) := by
  refine failureOf_bind fun d _ => failureOf_bind fun a _ => failureOf_bind fun n hn => ?_
  have hle : n ≤ maxShift ↔ n.toNat ≤ 31 := BitVec.le_def
  by_cases h : n.toNat ≤ 31 <;> simp [amountFailure, hn, hle, h, failureOf]

/-- The address check fails as 20_memory.md R63 says. -/
theorem failureOf_memIndex_bind {α : Type} {s : State} {base : MemToken} {ea : Word}
    (hea : baseAddress s base = .ok ea) (g : Nat → α) :
    failureOf ((memIndex ea).bind fun k => .ok (g k)) = addressFailure s base := by
  simp only [addressFailure, hea, ← validAddr_iff, memIndex]
  cases validAddr ea.toNat <;> rfl

/-- The failure of an instruction's body is that of its first failing check (60_exceptions.md R275). -/
theorem failureOf_instrBody (i : Instr) (s : State) :
    failureOf (instrBody i s) = Instr.failure s i := by
  cases i with
  | mov m rd src => exact failureOf_bind fun _ _ => failureOf_bind fun _ _ => rfl
  | mvn m rd src => exact failureOf_bind fun _ _ => failureOf_bind fun _ _ => rfl
  | cmp m a b => exact failureOf_bind fun _ _ => failureOf_bind fun _ _ => rfl
  | add m rd a b => exact failureOf_arith ..
  | sub m rd a b => exact failureOf_arith ..
  | and m rd a b => exact failureOf_arith ..
  | orr m rd a b => exact failureOf_arith ..
  | eor m rd a b => exact failureOf_arith ..
  | lsl m rd a n => exact failureOf_shift ..
  | lsr m rd a n => exact failureOf_shift ..
  | asr m rd a n => exact failureOf_shift ..
  | ror m rd a n => exact failureOf_shift ..
  | ldr m rd base =>
    exact failureOf_bind fun _ _ => failureOf_bind fun _ hea => failureOf_memIndex_bind hea _
  | str m rd base =>
    exact failureOf_bind fun _ _ => failureOf_bind fun _ hea => failureOf_memIndex_bind hea _
  | beq m label =>
    rcases beqBody_cases label s with ⟨k, -, -, hb⟩ | ⟨-, hb⟩ <;> exact congrArg failureOf hb
  | nop m => rfl

/-- With no failing check the body succeeds. -/
theorem instrBody_of_no_failure {i : Instr} {s : State} (h : Instr.failure s i = none) :
    ∃ e, instrBody i s = .ok e := by
  rw [← failureOf_instrBody] at h
  cases hb : instrBody i s with
  | error f => rw [hb] at h; cases h
  | ok e => exact ⟨e, rfl⟩

/-- Settles O40: a body that succeeds writes data and the instruction retires, or it is a taken BEQ. -/
theorem noFailureCompletes : Obligations.NoFailureCompletes := by
  intro i s hc hfail
  obtain ⟨e, hb⟩ := instrBody_of_no_failure hfail
  rw [exec_of_holds hc, hb]
  rcases instrBody_cases hb with ⟨x, flags, mem, rfl⟩ | ⟨m, label, k, rfl, -, -, rfl⟩
  · exact ⟨x, flags, mem, s.pc + 1, rfl, fun _ => rfl⟩
  · exact ⟨s.x, s.flags, s.mem, _, congrArg _ (finish_branch s k), fun hne => absurd rfl hne⟩

end Sys2Proof.Machine
end

section
/-! PROOFS of 41_alu.md. The flag rules bit by bit (R170, R171), what they say of a sum, a difference, a
complement and the logical results (R172, R175, R183), then each instruction: its body once the operands
resolve, and the flag rule at its result (R174 to R181). -/

namespace Sys2Proof.Machine

/-! ## The flag rules, bit by bit -/

/-- V of the addition rule: the operands agree in sign and the result does not (R170). -/
theorem addFlags_v (a b r : Word) :
    (addFlags a b r).v = (signBit a == signBit b && !(signBit r == signBit a)) := by
  simp only [addFlags, signBit_and, signBit_not, signBit_xor]
  cases signBit a <;> cases signBit b <;> cases signBit r <;> rfl

/-- V of the subtraction rule: the operands differ in sign and the result has the second's (R171). -/
theorem subFlags_v (a b r : Word) :
    (subFlags a b r).v =
      (!signBit a && signBit b && signBit r || signBit a && !signBit b && !signBit r) := by
  simp only [subFlags, signBit_and, signBit_xor]
  cases signBit a <;> cases signBit b <;> cases signBit r <;> rfl

theorem addFlags_bits (a b r : Word) :
    addFlags a b r =
      { n := r.getLsbD 31, z := decide (r = 0), c := decide (r.toNat < a.toNat),
        v := (~~~(a ^^^ b) &&& (a ^^^ r)).getLsbD 31 } := by
  simp only [getLsbD_31]
  rfl

theorem subFlags_bits (a b r : Word) :
    subFlags a b r =
      { n := r.getLsbD 31, z := decide (r = 0), c := decide (b.toNat ≤ a.toNat),
        v := ((a ^^^ b) &&& (a ^^^ r)).getLsbD 31 } := by
  simp only [getLsbD_31]
  rfl

theorem shiftFlags_bits (a r : Word) :
    shiftFlags a r =
      { n := r.getLsbD 31, z := decide (r = 0), c := decide (r.toNat < a.toNat),
        v := !a.getLsbD 31 && r.getLsbD 31 } := by
  have hv : (addFlags a 0 r).v = (!signBit a && signBit r) := by
    rw [addFlags_v, show signBit 0 = false from rfl]
    cases signBit a <;> cases signBit r <;> rfl
  simp only [getLsbD_31, ← hv]
  rfl

/-! ## A sum and a difference: the integer laws of R183 -/

/-- A sum wraps below its first operand exactly when it has a carry out of bit 31. -/
theorem add_lt_left_iff (a b : Word) : a + b < a ↔ 2 ^ 32 ≤ a.toNat + b.toNat := by
  have ha := a.isLt
  have hb := b.isLt
  rw [BitVec.lt_def, BitVec.toNat_add]
  omega

theorem addFlags_sum_v (a b : Word) :
    (addFlags a b (a + b)).v =
      decide (a.toInt + b.toInt < -2 ^ 31 ∨ 2 ^ 31 ≤ a.toInt + b.toInt) := by
  calc (addFlags a b (a + b)).v
    _ = a.saddOverflow b := (addFlags_v a b (a + b)).trans (BitVec.saddOverflow_eq a b).symm
    _ = _ := by rw [Bool.decide_or, Bool.or_comm]; rfl

theorem subFlags_difference_v (a b : Word) :
    (subFlags a b (a - b)).v =
      decide (a.toInt - b.toInt < -2 ^ 31 ∨ 2 ^ 31 ≤ a.toInt - b.toInt) := by
  calc (subFlags a b (a - b)).v
    _ = a.ssubOverflow b := (subFlags_v a b (a - b)).trans (BitVec.ssubOverflow_eq a b).symm
    _ = _ := by rw [Bool.decide_or, Bool.or_comm]; rfl

theorem addFlags_sum (a b : Word) :
    addFlags a b (a + b) =
      { n := (a + b).getLsbD 31, z := decide (a + b = 0),
        c := decide (2 ^ 32 ≤ a.toNat + b.toNat),
        v := decide (a.toInt + b.toInt < -2 ^ 31 ∨ 2 ^ 31 ≤ a.toInt + b.toInt) } := by
  simp only [getLsbD_31, ← add_lt_left_iff, ← addFlags_sum_v]
  rfl

theorem subFlags_difference (a b : Word) :
    subFlags a b (a - b) =
      { n := (a - b).getLsbD 31, z := decide (a = b), c := decide (b.toNat ≤ a.toNat),
        v := decide (a.toInt - b.toInt < -2 ^ 31 ∨ 2 ^ 31 ≤ a.toInt - b.toInt) } := by
  simp only [getLsbD_31, ← sub_eq_zero (a := a), ← subFlags_difference_v]
  rfl

/-- Settles O16: the laws from `addFlags_sum` and `subFlags_difference`, then each rule's own bits. -/
theorem flagUpdateRules : Obligations.FlagUpdateRules := by
  refine ⟨fun a b => ?laws, fun a b r => ⟨addFlags_bits a b r, subFlags_bits a b r,
    shiftFlags_bits a r⟩⟩
  case laws =>
    simp only [addFlags_sum, subFlags_difference, decide_eq_true_eq, Int.sub_one_lt_iff, and_self]

/-! ## A complement and the logical results -/

/-- MVN's rule at a complement: N is the operand's bit 31 turned over, Z that the operand is all ones. -/
theorem mvnFlags_not (old : Flags) (v : Word) :
    mvnFlags old (~~~v) =
      { n := !v.getLsbD 31, z := decide (v = 0xFFFFFFFF), c := old.c, v := old.v } := by
  have hz : ~~~v = 0 ↔ v = 0xFFFFFFFF := BitVec.not_eq_comm
  simp only [mvnFlags, signBit_not, getLsbD_31, hz]

theorem and_lt_left_iff (a b : Word) : a &&& b < a ↔ a &&& b ≠ a := by
  rw [BitVec.lt_def, BitVec.toNat_ne, BitVec.toNat_and]
  exact Nat.and_le_left.lt_iff_ne

theorem not_or_lt_left (a b : Word) : ¬ a ||| b < a := by
  rw [BitVec.lt_def, BitVec.toNat_or, Nat.not_lt]
  exact Nat.left_le_or

/-- The addition rule at a conjunction (R172): equal signs leave the result with that sign. -/
theorem addFlags_and (a b : Word) :
    addFlags a b (a &&& b) =
      { n := (a &&& b).getLsbD 31, z := decide (a &&& b = 0), c := decide (a &&& b ≠ a),
        v := false } := by
  have hv : (addFlags a b (a &&& b)).v = false := by
    rw [addFlags_v, signBit_and]
    cases signBit a <;> cases signBit b <;> rfl
  simp only [getLsbD_31, ← and_lt_left_iff, ← hv]
  rfl

/-- The addition rule at a disjunction (R172): equal signs leave the result with that sign. -/
theorem addFlags_or (a b : Word) :
    addFlags a b (a ||| b) =
      { n := (a ||| b).getLsbD 31, z := decide (a ||| b = 0), c := false, v := false } := by
  have hv : (addFlags a b (a ||| b)).v = false := by
    rw [addFlags_v, signBit_or]
    cases signBit a <;> cases signBit b <;> rfl
  have hc : (addFlags a b (a ||| b)).c = false := decide_eq_false (not_or_lt_left a b)
  rw [getLsbD_31, Flags.mk.injEq]
  exact ⟨rfl, rfl, hc, hv⟩

/-- The addition rule at an exclusive disjunction (R172): equal signs leave the result's sign clear. -/
theorem addFlags_xor (a b : Word) :
    addFlags a b (a ^^^ b) =
      { n := (a ^^^ b).getLsbD 31, z := decide (a = b),
        c := decide ((a ^^^ b).toNat < a.toNat), v := a.getLsbD 31 && b.getLsbD 31 } := by
  have hv : (addFlags a b (a ^^^ b)).v = (signBit a && signBit b) := by
    rw [addFlags_v, signBit_xor]
    cases signBit a <;> cases signBit b <;> rfl
  simp only [getLsbD_31, ← BitVec.xor_eq_zero_iff (x := a), ← hv]
  rfl

/-! ## The bodies, once their operands resolve -/

theorem movBody_of_ok {rd : RegToken} {src : Option Text} {s : State} {d : RegIx} {v : Word}
    (hd : regIndex rd = .ok d) (hv : resolve s src = .ok v) :
    movBody rd src s = .ok (fallThrough (s.writeReg d v)) := by
  simp [movBody, hd, hv, Except.bind]

theorem mvnBody_of_ok {rd : RegToken} {src : Option Text} {s : State} {d : RegIx} {v : Word}
    (hd : regIndex rd = .ok d) (hv : resolve s src = .ok v) (asked : Bool) :
    mvnBody asked rd src s =
      .ok (fallThrough ((s.writeReg d (~~~v)).setFlagsIf asked (mvnFlags s.flags (~~~v)))) := by
  simp [mvnBody, hd, hv, Except.bind]

theorem cmpBody_of_ok {op1 op2 : Option Text} {s : State} {a b : Word}
    (ha : resolve s op1 = .ok a) (hb : resolve s op2 = .ok b) :
    cmpBody op1 op2 s = .ok (fallThrough (s.setFlagsIf true (subFlags a b (a - b)))) := by
  simp [cmpBody, ha, hb, Except.bind]

/-- What an instruction of the shape `arith` leaves once its condition holds and its operands resolve:
the result in `Rd`, and on request the flags of its rule there. -/
theorem exec_of_arith {i : Instr} {rd : RegToken} {rn op2 : Option Text} {s : State} {d : RegIx}
    {a b : Word} {compute : Word → Word → Word} {newFlags : Word → Word → Word → Flags}
    (hbody : instrBody i = arith i.mods.setflags rd rn op2 compute newFlags)
    (hc : condHolds i.mods.cond s.flags = true) (hd : regIndex rd = .ok d)
    (ha : resolve s rn = .ok a) (hb : resolve s op2 = .ok b) :
    exec i s = .next (s.retired (s.x.set d (compute a b))
      (if i.mods.setflags then newFlags a b (compute a b) else s.flags) s.mem) := by
  rw [exec_of_holds hc, hbody, arith_of_ok hd ha hb, finish_writeReg_setFlagsIf]

/-! ## Each instruction completes -/

/-- Settles O17: no flag rule is applied, and `S` is not looked at. -/
theorem movCompletes : Obligations.MovCompletes := by
  intro m rd src s d v hc hd hv
  calc exec (.mov m rd src) s
    _ = .next (s.finish (movBody rd src s)) := exec_of_holds (i := .mov m rd src) hc
    _ = _ := by rw [movBody_of_ok hd hv, finish_writeReg]

/-- Settles O18, with the flags of `mvnFlags_not`. -/
theorem mvnCompletes : Obligations.MvnCompletes := by
  intro m rd src s d v hc hd hv
  calc exec (.mvn m rd src) s
    _ = .next (s.finish (mvnBody m.setflags rd src s)) := exec_of_holds (i := .mvn m rd src) hc
    _ = _ := by rw [mvnBody_of_ok hd hv, finish_writeReg_setFlagsIf, mvnFlags_not]

/-- Settles O19, with the flags of `subFlags_difference`. -/
theorem cmpCompletes : Obligations.CmpCompletes := by
  intro m op1 op2 s a b hc ha hb
  calc exec (.cmp m op1 op2) s
    _ = .next (s.finish (cmpBody op1 op2 s)) := exec_of_holds (i := .cmp m op1 op2) hc
    _ = _ := by rw [cmpBody_of_ok ha hb, finish_setFlags, subFlags_difference]

/-- Settles O20, with the flags of `addFlags_sum`. -/
theorem addCompletes : Obligations.AddCompletes := by
  intro m rd rn op2 s d a b hc hd ha hb
  rw [← addFlags_sum]
  exact exec_of_arith (i := .add m rd rn op2) rfl hc hd ha hb

/-- Settles O21, with the flags of `subFlags_difference`. -/
theorem subCompletes : Obligations.SubCompletes := by
  intro m rd rn op2 s d a b hc hd ha hb
  rw [← subFlags_difference]
  exact exec_of_arith (i := .sub m rd rn op2) rfl hc hd ha hb

/-- Settles O22, with the flags of the addition rule at each logical result. -/
theorem logicalOperationsComplete : Obligations.LogicalOperationsComplete := by
  intro m rd rn op2 s d a b hc hd ha hb
  rw [← addFlags_and, ← addFlags_or, ← addFlags_xor]
  exact ⟨exec_of_arith (i := .and m rd rn op2) rfl hc hd ha hb,
    exec_of_arith (i := .orr m rd rn op2) rfl hc hd ha hb,
    exec_of_arith (i := .eor m rd rn op2) rfl hc hd ha hb⟩

end Sys2Proof.Machine
end

section
/-! PROOFS of 42_shift.md. What each result is as a number or bit by bit (R212 to R215) and the rotation law
(R216), the flags of R211 at the right shifts, then each instruction: it completes for an amount of 0 to 31
and raises for any other (R210). -/

namespace Sys2Proof.Machine

/-! ## The results -/

theorem toNat_shiftLeft_eq (a : Word) (n : Nat) : (a <<< n).toNat = a.toNat * 2 ^ n % 2 ^ 32 := by
  rw [BitVec.toNat_shiftLeft, Nat.shiftLeft_eq]

theorem toNat_ushiftRight_eq (a : Word) (n : Nat) : (a >>> n).toNat = a.toNat / 2 ^ n := by
  rw [BitVec.toNat_ushiftRight, Nat.shiftRight_eq_div_pow]

theorem toInt_sshiftRight_eq (a : Word) (n : Nat) :
    (a.sshiftRight n).toInt = Int.fdiv a.toInt (2 ^ n) := by
  calc (a.sshiftRight n).toInt
    _ = a.toInt >>> n := BitVec.toInt_sshiftRight
    _ = a.toInt / 2 ^ n := by rw [Int.shiftRight_eq_div_pow, Nat.cast_pow, Nat.cast_ofNat]
    _ = _ := (Int.fdiv_eq_ediv_of_nonneg _ (by positivity)).symm

/-! ## The rotation -/

/-- Below the width the model's rotation is the library's; by 0, a shift left by the whole width adds
nothing (R215). -/
theorem rotateRight_eq (a : Word) {n : Nat} (hn : n < 32) : rotateRight a n = a.rotateRight n := by
  rw [BitVec.rotateRight_def, Nat.mod_eq_of_lt hn, rotateRight]
  split
  next h => simp [h, BitVec.shiftLeft_eq_zero]
  next => rfl

/-- The low bits have moved to the top (R215). -/
theorem getLsbD_rotateRight (a : Word) {n j : Nat} (hn : n < 32) (hj : j < 32) :
    (rotateRight a n).getLsbD j = a.getLsbD ((j + n) % 32) := by
  rw [rotateRight_eq a hn, BitVec.getLsbD_rotateRight, Nat.mod_eq_of_lt hn]
  by_cases hlow : j < 32 - n
  · have hidx : (j + n) % 32 = n + j := by omega
    simp [hlow, hidx]
  · have hidx : (j + n) % 32 = j - (32 - n) := by omega
    simp [hlow, hj, hidx]

theorem rotateRight_zero (a : Word) : rotateRight a 0 = a := if_pos rfl

/-- Rotations whose amounts add up to the width cancel (R216): bit `j` goes through bit
`(j + (32 - n)) mod 32` and comes back. -/
theorem rotateRight_rotateRight_sub (a : Word) {n : Nat} (hpos : 1 ≤ n) (hle : n ≤ 31) :
    rotateRight (rotateRight a n) (32 - n) = a := by
  refine BitVec.eq_of_getLsbD_eq fun j hj => ?_
  have hback : ((j + (32 - n)) % 32 + n) % 32 = j := by omega
  rw [getLsbD_rotateRight _ (by omega) hj, getLsbD_rotateRight a (by omega) (by omega), hback]

/-- Settles O28, bit by bit. -/
theorem rotationsInvert : Obligations.RotationsInvert :=
  fun a => ⟨fun _ => rotateRight_rotateRight_sub a, rotateRight_zero a⟩

/-! ## The flags of the right shifts -/

/-- The shift rule at a logical right shift (R213): only an amount of 0 leaves bit 31 set. -/
theorem shiftFlags_ushiftRight (a n : Word) :
    shiftFlags a (a >>> n.toNat) =
      { n := decide (n = 0) && a.getLsbD 31, z := decide (a >>> n.toNat = 0),
        c := decide ((a >>> n.toNat).toNat < a.toNat), v := false } := by
  have hsign : (a >>> n.toNat).getLsbD 31 = (decide (n = 0) && a.getLsbD 31) := by
    rw [getLsbD_31, getLsbD_31, signBit, BitVec.msb_ushiftRight, signBit]
    simp [BitVec.toNat_eq, Nat.pos_iff_ne_zero]
  have hv : (!a.getLsbD 31 && (decide (n = 0) && a.getLsbD 31)) = false := by
    cases a.getLsbD 31 <;> simp
  rw [shiftFlags_bits, hsign, hv]

/-- The shift rule at an arithmetic right shift (R214): bit 31 stays as it was. -/
theorem shiftFlags_sshiftRight (a : Word) (n : Nat) :
    shiftFlags a (a.sshiftRight n) =
      { n := a.getLsbD 31, z := decide (a.sshiftRight n = 0),
        c := decide ((a.sshiftRight n).toNat < a.toNat), v := false } := by
  have hsign : (a.sshiftRight n).getLsbD 31 = a.getLsbD 31 := by
    rw [getLsbD_31, getLsbD_31, signBit, BitVec.msb_sshiftRight, signBit]
  rw [shiftFlags_bits, hsign, Bool.not_and_self]

/-! ## The shape of every shift -/

section
variable {i : Instr} {rd : RegToken} {rn amount : Option Text} {s : State} {d : RegIx} {a n : Word}
  {compute : Word → Nat → Word}

/-- What a shift leaves for a legal amount: the result in `Rd`, and on request the flags of R211. -/
theorem exec_of_shift (hbody : instrBody i = shift i.mods.setflags rd rn amount compute)
    (hc : condHolds i.mods.cond s.flags = true) (hd : regIndex rd = .ok d)
    (ha : resolve s rn = .ok a) (hn : resolve s amount = .ok n) (hle : n.toNat ≤ 31) :
    exec i s = .next (s.retired (s.x.set d (compute a n.toNat))
      (if i.mods.setflags then shiftFlags a (compute a n.toNat) else s.flags) s.mem) := by
  have hmax : n ≤ maxShift := BitVec.le_def.2 hle
  rw [exec_of_holds hc, hbody, shift_of_ok hd ha hn, if_pos hmax, finish_writeReg_setFlagsIf]

/-- What a shift leaves for an amount above 31, whatever it computes (R210). -/
theorem exec_of_shift_bad_amount
    (hbody : instrBody i = shift i.mods.setflags rd rn amount compute)
    (hc : condHolds i.mods.cond s.flags = true) (hd : regIndex rd = .ok d)
    (ha : resolve s rn = .ok a) (hn : resolve s amount = .ok n) (hgt : 31 < n.toNat) :
    exec i s = .next (s.errored .invalidArgument badShiftMessage) := by
  have hmax : ¬ n ≤ maxShift := fun h => absurd (BitVec.le_def.1 h) (Nat.not_le.2 hgt)
  rw [exec_of_holds hc, hbody, shift_of_ok hd ha hn, if_neg hmax, finish_error,
    fail_invalidArgument]

end

/-! ## Each instruction completes -/

/-- Settles O23, with the flags of `shiftFlags_bits`. -/
theorem lslCompletes : Obligations.LslCompletes := by
  intro m rd rn amount s d a n hc hd ha hn hle
  refine ⟨a <<< n.toNat, toNat_shiftLeft_eq a n.toNat, ?_⟩
  rw [← shiftFlags_bits]
  exact exec_of_shift (i := .lsl m rd rn amount) rfl hc hd ha hn hle

/-- Settles O24, with the flags of `shiftFlags_ushiftRight`. -/
theorem lsrCompletes : Obligations.LsrCompletes := by
  intro m rd rn amount s d a n hc hd ha hn hle
  refine ⟨a >>> n.toNat, toNat_ushiftRight_eq a n.toNat, ?_⟩
  rw [← shiftFlags_ushiftRight]
  exact exec_of_shift (i := .lsr m rd rn amount) rfl hc hd ha hn hle

/-- Settles O25, with the flags of `shiftFlags_sshiftRight`. -/
theorem asrCompletes : Obligations.AsrCompletes := by
  intro m rd rn amount s d a n hc hd ha hn hle
  refine ⟨a.sshiftRight n.toNat, toInt_sshiftRight_eq a n.toNat, ?_⟩
  rw [← shiftFlags_sshiftRight]
  exact exec_of_shift (i := .asr m rd rn amount) rfl hc hd ha hn hle

/-- Settles O26, with the bits of `getLsbD_rotateRight` and the flags of `shiftFlags_bits`. -/
theorem rorCompletes : Obligations.RorCompletes := by
  intro m rd rn amount s d a n hc hd ha hn hle
  refine ⟨rotateRight a n.toNat,
    fun j hj => getLsbD_rotateRight a (Nat.lt_succ_of_le hle) hj, ?_⟩
  rw [← shiftFlags_bits]
  exact exec_of_shift (i := .ror m rd rn amount) rfl hc hd ha hn hle

/-! ## A bad amount -/

/-- Settles O27: the check comes before anything is computed, so the four shifts fail alike. -/
theorem badShiftAmountRaises : Obligations.BadShiftAmountRaises := by
  intro m rd rn amount s d a n hc hd ha hn hgt i hi
  simp only [List.mem_cons, List.not_mem_nil, or_false] at hi
  rcases hi with rfl | rfl | rfl | rfl
  · exact exec_of_shift_bad_amount (i := .lsl m rd rn amount) rfl hc hd ha hn hgt
  · exact exec_of_shift_bad_amount (i := .lsr m rd rn amount) rfl hc hd ha hn hgt
  · exact exec_of_shift_bad_amount (i := .asr m rd rn amount) rfl hc hd ha hn hgt
  · exact exec_of_shift_bad_amount (i := .ror m rd rn amount) rfl hc hd ha hn hgt

end Sys2Proof.Machine
end

section
/-! PROOFS of 43_load_store.md. At an address the check of R230 accepts, LDR loads the addressed word (R231)
and STR replaces that word alone (R232), so a load gives back what a store wrote (R234). -/

namespace Sys2Proof.Machine

/-- An address that meets R63 is accepted, with the index of R62. -/
theorem memIndex_of_inside {ea : Word} (hlow : 0x100 ≤ ea.toNat) (hhigh : ea.toNat ≤ 0x110)
    (haligned : ea.toNat % 4 = 0) : memIndex ea = .ok ((ea.toNat - 0x100) / 4) :=
  memIndex_ok.2 ⟨(validAddr_iff _).2 ⟨hlow, hhigh, haligned⟩, rfl⟩

/-- Loading by a checked index is reading at the address. -/
theorem State.loadWord_of_memIndex {ea : Word} {k : Nat} (hk : memIndex ea = .ok k) (s : State) :
    s.loadWord k = Memory.read s.mem ea.toNat := by
  rw [State.loadWord, wordAddr_of_memIndex hk]

section
variable {m : Mods} {rd : RegToken} {base : MemToken} {s : State} {d n : RegIx} {k : Nat}

/-- What LDR leaves once its condition holds and its address is accepted. -/
theorem exec_ldr_of_memIndex (hc : condHolds m.cond s.flags = true) (hd : regIndex rd = .ok d)
    (hn : regIndex base.base = .ok n) (hk : memIndex s.x[n] = .ok k) :
    exec (.ldr m rd base) s =
      .next (s.retired (s.x.set d (s.loadWord k)) s.flags s.mem) := by
  calc exec (.ldr m rd base) s
    _ = .next (s.finish (ldrBody rd base s)) := exec_of_holds (i := .ldr m rd base) hc
    _ = _ := by
      rw [ldrBody_of_resolved hd (baseAddress_of_reg hn s), hk, Except.bind, finish_writeReg]

/-- What STR leaves once its condition holds and its address is accepted. -/
theorem exec_str_of_memIndex (hc : condHolds m.cond s.flags = true) (hd : regIndex rd = .ok d)
    (hn : regIndex base.base = .ok n) (hk : memIndex s.x[n] = .ok k) :
    exec (.str m rd base) s = .next (s.retired s.x s.flags (s.storeWord k s.x[d]).mem) := by
  calc exec (.str m rd base) s
    _ = .next (s.finish (strBody rd base s)) := exec_of_holds (i := .str m rd base) hc
    _ = _ := by
      rw [strBody_of_resolved hd (baseAddress_of_reg hn s), hk, Except.bind, finish_storeWord,
        State.storeWord_mem]

end

/-- Settles O30: the accepted address's word is the one the index names. -/
theorem ldrCompletes : Obligations.LdrCompletes := by
  intro m rd base s d n hc hd hn hlow hhigh haligned
  have hk := memIndex_of_inside hlow hhigh haligned
  rw [← State.loadWord_of_memIndex hk]
  exact ⟨exec_ldr_of_memIndex hc hd hn hk, rfl⟩

/-- Settles O31: `storeWord_read` says what every address reads after the store. -/
theorem strCompletes : Obligations.StrCompletes := by
  intro m rd base s d n hc hd hn hlow hhigh haligned hw
  have hk := memIndex_of_inside hlow hhigh haligned
  have hread := State.storeWord_read hw hk s.x[d]
  exact ⟨_, exec_str_of_memIndex hc hd hn hk, State.storeWord_wf hk hw,
    (hread _).trans (if_pos rfl), fun a ha => (hread a).trans (if_neg ha)⟩

/-- Settles O33: the word reads in `u` as the store left it, and LDR writes what it reads there. -/
theorem storeThenLoadGivesBack : Obligations.StoreThenLoadGivesBack := by
  intro m m' rd re base s t u d e n hw hc hd hn hlow hhigh haligned hstr hbase hword hc' he
  obtain ⟨mem, hexec, -, hstored, -⟩ := strCompletes m rd base s d n hc hd hn hlow hhigh haligned hw
  obtain rfl : s.retired s.x s.flags mem = t := by simpa using hexec.symm.trans hstr
  rw [← hbase] at hlow hhigh haligned
  obtain ⟨hldr, -⟩ := ldrCompletes m' re base u e n hc' he hn hlow hhigh haligned
  refine ⟨_, hldr, ?_⟩
  calc (u.x.set e (Memory.read u.mem u.x[n].toNat))[e]
    _ = Memory.read u.mem u.x[n].toNat := Vector.getElem_set_self e.isLt
    _ = Memory.read mem s.x[n].toNat := by rw [hbase, hword, State.retired_mem]
    _ = s.x[d] := hstored

end Sys2Proof.Machine
end

section
/-! PROOFS of 44_control.md. When a BEQ is taken and where it lands (R250), BEQ behind the gate of its
suffixes (R251), NOP (R253), and the BEQ that lands on itself (R255). -/

namespace Sys2Proof.Machine

/-! ## The label table -/

/-- Names are unique (10_state.md R44), so the entry that `lookupLabel` finds first is the only one. -/
theorem State.lookupLabel_of_mem {s : State} {label : Text} {k : Nat} (hk : (label, k) ∈ s.labels)
    (hnodup : (s.labels.map Prod.fst).Nodup) : s.lookupLabel label = some k := by
  obtain ⟨before, after, heq⟩ := List.append_of_mem hk
  refine List.lookup_eq_some_iff.2 ⟨before, after, heq, fun e he => ?_⟩
  rw [heq, List.map_append, List.nodup_append] at hnodup
  obtain ⟨-, -, hdisjoint⟩ := hnodup
  have hne : e.1 ≠ label := hdisjoint _ (List.mem_map_of_mem he) _ (by simp)
  simpa using hne.symm

/-! ## BEQ and NOP -/

theorem beqBody_taken {label : Text} {s : State} {k : Nat} (hz : s.flags.z = true)
    (hl : s.lookupLabel label = some k) :
    beqBody label s = .ok { state := { s with pc := k }, branched := true } := by
  simp [beqBody, hz, hl]

/-- Settles O35: the table maps the label to `k`, and `finish_branch` is the landing. -/
theorem beqTaken : Obligations.BeqTaken := by
  intro m label s k hc hz hk hnodup
  have hl : s.lookupLabel label = some k := State.lookupLabel_of_mem hk hnodup
  calc exec (.beq m label) s
    _ = .next (s.finish (beqBody label s)) := exec_of_holds (i := .beq m label) hc
    _ = _ := by rw [beqBody_taken hz hl, finish_branch]

/-- An instruction whose body does nothing is retired, whether or not its condition holds. -/
theorem exec_of_body_fallThrough {i : Instr} {s : State}
    (hbody : instrBody i s = .ok (fallThrough s)) :
    exec i s = .next (s.retired s.x s.flags s.mem) := by
  cases hc : condHolds i.mods.cond s.flags with
  | false => exact falseConditionSkips.1 i s hc
  | true => rw [exec_of_holds hc, hbody, finish_fallThrough]

/-- Settles O36: of the cases of `beqBody_cases`, the taken one needs Z = 1 and a label in the table. -/
theorem beqFallsThrough : Obligations.BeqFallsThrough := by
  intro m label s hno
  apply exec_of_body_fallThrough (i := .beq m label)
  rcases beqBody_cases label s with ⟨k, hz, hl, -⟩ | ⟨-, hbody⟩
  · rcases hno with hz' | habsent
    · cases hz.symm.trans hz'
    · exact absurd (List.mem_map_of_mem (State.mem_of_lookupLabel hl)) habsent
  · exact hbody

/-- Settles O38: NOP's body does nothing. -/
theorem nopCompletes : Obligations.NopCompletes :=
  fun m _ => exec_of_body_fallThrough (i := .nop m) rfl

/-! ## BEQ through the generic path -/

/-- A BEQ with suffixes is the plain BEQ behind the gate of its condition. -/
theorem exec_beq_eq_gate (setflags : Bool) (c : Option Cond) (label : Text) (s : State) :
    exec (.beq ⟨setflags, c⟩ label) s =
      if condHolds c s.flags then exec (.beq ⟨false, none⟩ label) s
      else .next (s.retired s.x s.flags s.mem) := by
  cases hc : condHolds c s.flags with
  | false => exact falseConditionSkips.1 (.beq ⟨setflags, c⟩ label) s hc
  | true =>
    calc exec (.beq ⟨setflags, c⟩ label) s
      _ = .next (s.finish (beqBody label s)) := exec_of_holds (i := .beq ⟨setflags, c⟩ label) hc
      _ = exec (.beq ⟨false, none⟩ label) s :=
        (exec_of_holds (i := .beq ⟨false, none⟩ label) (condHolds_none s.flags)).symm

/-- Settles O37. BEQEQ and BEQNE ask Z twice, at the gate and in BEQ's own test: at EQ the two agree, at NE
they exclude each other. -/
theorem beqThroughGenericPath : Obligations.BeqThroughGenericPath := by
  intro setflags c label s
  obtain ⟨-, heq, hne, -, hge, -⟩ := conditionTruthTable s.flags
  refine ⟨exec_beq_eq_gate setflags c label s, ?eq, ?ne, ?ge⟩
  case eq =>
    cases hz : s.flags.z with
    | true => rw [exec_beq_eq_gate, if_pos (heq.2 hz)]
    | false => rw [beqFallsThrough _ label s (.inl hz), beqFallsThrough _ label s (.inl hz)]
  case ne =>
    cases hz : s.flags.z with
    | true => rw [exec_beq_eq_gate, if_neg (by simp [hne, hz])]
    | false => exact beqFallsThrough _ label s (.inl hz)
  case ge => simp only [exec_beq_eq_gate setflags (some .ge), hge]

/-! ## The endless loop -/

/-- What every step keeps and allows to go on holds after a run of any length. -/
theorem run_next_of_invariant {M : Host.Core} {P : M.State → Prop}
    (hstep : ∀ s, P s → ∃ t, M.step s = .next t ∧ P t) (n : Nat) {s : M.State} (hs : P s) :
    ∃ t, M.run n s = .next t ∧ P t := by
  induction n generalizing s with
  | zero => exact ⟨s, rfl, hs⟩
  | succ n ih =>
    obtain ⟨u, hu, hPu⟩ := hstep s hs
    obtain ⟨t, ht, hPt⟩ := ih hPu
    exact ⟨t, by rw [Host.Core.run, hu]; exact ht, hPt⟩

/-- `s` runs a well-formed program whose line at the pc is a BEQ that is taken and lands on itself
(44_control.md R255). -/
def AtSelfLoop (s : State) : Prop :=
  s.status = .running ∧ ProgramOk s.prog s.labels ∧
    ∃ line i k, s.prog[s.pc]? = some line ∧ decodeLine line = .ok (.instr i) ∧ TakenBeq i s k ∧
      (if s.params.branchLandsAfterLabel then k + 1 else k) = s.pc

/-- A turn of the loop adds its report to the trace and changes nothing else. -/
theorem AtSelfLoop.step_eq {s : State} (h : AtSelfLoop s) :
    step s = .next { s with trace := s.trace ++ [.report s.line s.x s.flags s.mem] } := by
  obtain ⟨hs, hok, line, _, k, hl, hd, ⟨m, label, rfl, hc, hz, hk⟩, hland⟩ := h
  have ⟨_, _, _, hnodup⟩ := hok
  calc step s
    _ = exec (.beq m label) s := stepRunsDecodedInstruction s line _ hs hok hl hd
    _ = .next { s.retired s.x s.flags s.mem with pc := s.pc } := by
      rw [beqTaken m label s k hc hz hk hnodup, hland]

/-- The trace is the one thing the loop changes, and being at the loop does not depend on it. -/
theorem AtSelfLoop.run_eq {s : State} (h : AtSelfLoop s) (n : Nat) :
    ∃ t, Host.Core.run Sys2Proof.core n s = .next t ∧ ∃ trace, t = { s with trace := trace } := by
  refine run_next_of_invariant (M := Sys2Proof.core) ?_ n ⟨s.trace, rfl⟩
  rintro _ ⟨trace, rfl⟩
  have hloop : AtSelfLoop { s with trace := trace } := h
  exact ⟨_, hloop.step_eq, _, rfl⟩

/-- Settles O55: the loop's states differ from the first in the trace alone. -/
theorem beqSelfLoopNeverEnds : Obligations.BeqSelfLoopNeverEnds := by
  intro s line m label k hs hok hl hd hc hz hk hland n
  have hloop : AtSelfLoop s :=
    ⟨hs, hok, line, _, k, hl, hd, ⟨m, label, rfl, hc, hz, hk⟩, hland⟩
  obtain ⟨_, hrun, trace, rfl⟩ := hloop.run_eq n
  exact ⟨_, hrun, rfl, hs, rfl, rfl, rfl⟩

end Sys2Proof.Machine
end

section
/-! PROOFS of 60_exceptions.md. The first failing check decides what a failed instruction leaves (R275), and
no step depends on the events before it (R278): forgetting the trace commutes with every part of a step. -/

namespace Sys2Proof.Machine

/-! ## States without their past events -/

@[simp] theorem State.withoutTrace_x (s : State) : s.withoutTrace.x = s.x := rfl
@[simp] theorem State.withoutTrace_flags (s : State) : s.withoutTrace.flags = s.flags := rfl
@[simp] theorem State.withoutTrace_params (s : State) : s.withoutTrace.params = s.params := rfl

/-- The effect of a body, its state without past events. -/
def Effect.withoutTrace (e : Effect) : Effect := { e with state := e.state.withoutTrace }

/-- An outcome, its next state without past events. -/
def outcomeWithoutTrace : Host.Outcome State Fault Refusal → Host.Outcome State Fault Refusal
  | .next t => .next t.withoutTrace
  | .fault r => .fault r
  | .refused r => .refused r

theorem sameOutcome_iff (o o' : Host.Outcome State Fault Refusal) :
    SameOutcome o o' ↔ outcomeWithoutTrace o = outcomeWithoutTrace o' := by
  cases o <;> cases o' <;> simp [SameOutcome, outcomeWithoutTrace]

/-! ## What the parts of a body read and write -/

@[simp] theorem resolve_withoutTrace (s : State) (o : Option Text) :
    resolve s.withoutTrace o = resolve s o :=
  resolve_congr s.withoutTrace_x o

@[simp] theorem baseAddress_withoutTrace (s : State) (base : MemToken) :
    baseAddress s.withoutTrace base = baseAddress s base :=
  baseAddress_congr s.withoutTrace_x base

/-- A register's write and its flags, the effect that most bodies have. -/
theorem registerWrite_withoutTrace (s : State) (d : RegIx) (v : Word) (asked : Bool) (f : Flags) :
    (fallThrough ((s.writeReg d v).setFlagsIf asked f)).withoutTrace =
      fallThrough ((s.withoutTrace.writeReg d v).setFlagsIf asked f) := by
  cases asked <;> rfl

/-- A body whose effect in `s` without its past events is its effect in `s`, with them forgotten after. -/
def ForgetsTrace (body : State → Except Failure Effect) (s : State) : Prop :=
  body s.withoutTrace = (body s).map Effect.withoutTrace

/-- A check comes before the rest: what maps the rest maps the whole. -/
theorem bind_eq_map_bind {α β : Type} {r : Except Failure α} {g g' : α → Except Failure β} {f : β → β}
    (h : ∀ x, g' x = (g x).map f) : r.bind g' = (r.bind g).map f := by
  cases r with
  | error e => rfl
  | ok x => exact h x

theorem arith_forgetsTrace (asked : Bool) (rd : RegToken) (rn op2 : Option Text)
    (compute : Word → Word → Word) (newFlags : Word → Word → Word → Flags) (s : State) :
    ForgetsTrace (arith asked rd rn op2 compute newFlags) s := by
  simp only [ForgetsTrace, arith, resolve_withoutTrace]
  exact bind_eq_map_bind fun _ => bind_eq_map_bind fun _ => bind_eq_map_bind fun _ =>
    congrArg Except.ok (registerWrite_withoutTrace ..).symm

theorem shift_forgetsTrace (asked : Bool) (rd : RegToken) (rn amount : Option Text)
    (compute : Word → Nat → Word) (s : State) :
    ForgetsTrace (shift asked rd rn amount compute) s := by
  simp only [ForgetsTrace, shift, resolve_withoutTrace]
  refine bind_eq_map_bind fun d => bind_eq_map_bind fun a => bind_eq_map_bind fun n => ?_
  split
  · exact congrArg Except.ok (registerWrite_withoutTrace ..).symm
  · rfl

theorem movBody_forgetsTrace (rd : RegToken) (src : Option Text) (s : State) :
    ForgetsTrace (movBody rd src) s := by
  simp only [ForgetsTrace, movBody, resolve_withoutTrace]
  exact bind_eq_map_bind fun _ => bind_eq_map_bind fun _ => rfl

theorem mvnBody_forgetsTrace (asked : Bool) (rd : RegToken) (src : Option Text) (s : State) :
    ForgetsTrace (mvnBody asked rd src) s := by
  simp only [ForgetsTrace, mvnBody, resolve_withoutTrace]
  exact bind_eq_map_bind fun _ => bind_eq_map_bind fun _ =>
    congrArg Except.ok (registerWrite_withoutTrace ..).symm

theorem cmpBody_forgetsTrace (op1 op2 : Option Text) (s : State) :
    ForgetsTrace (cmpBody op1 op2) s := by
  simp only [ForgetsTrace, cmpBody, resolve_withoutTrace]
  exact bind_eq_map_bind fun _ => bind_eq_map_bind fun _ => rfl

theorem ldrBody_forgetsTrace (rd : RegToken) (base : MemToken) (s : State) :
    ForgetsTrace (ldrBody rd base) s := by
  simp only [ForgetsTrace, ldrBody, baseAddress_withoutTrace]
  exact bind_eq_map_bind fun _ => bind_eq_map_bind fun _ => bind_eq_map_bind fun _ => rfl

theorem strBody_forgetsTrace (rd : RegToken) (base : MemToken) (s : State) :
    ForgetsTrace (strBody rd base) s := by
  simp only [ForgetsTrace, strBody, baseAddress_withoutTrace]
  exact bind_eq_map_bind fun _ => bind_eq_map_bind fun _ => bind_eq_map_bind fun _ => rfl

theorem beqBody_forgetsTrace (label : Text) (s : State) : ForgetsTrace (beqBody label) s := by
  have hlookup : s.withoutTrace.lookupLabel label = s.lookupLabel label := rfl
  simp only [ForgetsTrace, beqBody, hlookup, State.withoutTrace_flags]
  cases s.flags.z <;> cases s.lookupLabel label <;> rfl

/-- No instruction reads the past events. -/
theorem instrBody_forgetsTrace (i : Instr) (s : State) : ForgetsTrace (instrBody i) s := by
  cases i with
  | mov m rd src => exact movBody_forgetsTrace rd src s
  | mvn m rd src => exact mvnBody_forgetsTrace m.setflags rd src s
  | cmp m a b => exact cmpBody_forgetsTrace a b s
  | add m rd a b | sub m rd a b | and m rd a b | orr m rd a b | eor m rd a b =>
    exact arith_forgetsTrace m.setflags rd a b _ _ s
  | lsl m rd a n | lsr m rd a n | asr m rd a n | ror m rd a n =>
    exact shift_forgetsTrace m.setflags rd a n _ s
  | ldr m rd base => exact ldrBody_forgetsTrace rd base s
  | str m rd base => exact strBody_forgetsTrace rd base s
  | beq m label => exact beqBody_forgetsTrace label s
  | nop m => rfl

/-! ## Whole instructions and steps -/

/-- A failure is taken alike: its kind is the failure's, and a free message lands in the trace. -/
theorem fail_withoutTrace (s : State) (f : Failure) :
    (s.withoutTrace.fail f).withoutTrace = (s.fail f).withoutTrace := by
  cases f with
  | outOfRange => rfl
  | invalidArgument message => rfl
  | parseError token =>
    simp only [State.fail, State.withoutTrace_params]
    cases s.params.parseFailurePolicy <;> rfl

theorem advanceAfter_withoutTrace (s : State) (branched : Bool) :
    (s.advanceAfter branched).withoutTrace = s.withoutTrace.advanceAfter branched :=
  apply_ite State.withoutTrace _ s s.advance

theorem emitReport_withoutTrace (s : State) (line : Text) :
    (s.emitReport line).withoutTrace = s.withoutTrace := rfl

theorem withoutTrace_withoutTrace (s : State) : s.withoutTrace.withoutTrace = s.withoutTrace := rfl

theorem finish_withoutTrace (s : State) (r : Except Failure Effect) :
    (s.withoutTrace.finish (r.map Effect.withoutTrace)).withoutTrace = (s.finish r).withoutTrace := by
  cases r with
  | error f => exact fail_withoutTrace s f
  | ok e =>
    simp only [Except.map, State.finish, advanceAfter_withoutTrace, emitReport_withoutTrace,
      Effect.withoutTrace, withoutTrace_withoutTrace]

theorem gated_of_holds {s : State} {c : Option Cond} (h : condHolds c s.flags = true)
    (body : State → Except Failure Effect) : s.gated c body = body s := if_pos h

theorem gated_of_not {s : State} {c : Option Cond} (h : ¬ condHolds c s.flags = true)
    (body : State → Except Failure Effect) : s.gated c body = .ok (fallThrough s) := if_neg h

/-- The gate reads the flags alone. -/
theorem gated_withoutTrace {s : State} {body : State → Except Failure Effect}
    (h : ForgetsTrace body s) (c : Option Cond) :
    s.withoutTrace.gated c body = (s.gated c body).map Effect.withoutTrace := by
  by_cases hc : condHolds c s.flags = true
  · rw [gated_of_holds hc, gated_of_holds (s := s.withoutTrace) hc, h]
  · rw [gated_of_not hc, gated_of_not (s := s.withoutTrace) hc]
    rfl

theorem perform_withoutTrace {s : State} {body : State → Except Failure Effect}
    (h : ForgetsTrace body s) (c : Option Cond) :
    outcomeWithoutTrace (s.withoutTrace.perform c body) = outcomeWithoutTrace (s.perform c body) := by
  simp only [State.perform, outcomeWithoutTrace, gated_withoutTrace h, finish_withoutTrace]

theorem exec_withoutTrace (i : Instr) (s : State) :
    outcomeWithoutTrace (exec i s.withoutTrace) = outcomeWithoutTrace (exec i s) := by
  rw [exec_eq_perform, exec_eq_perform, perform_withoutTrace (instrBody_forgetsTrace i s)]

/-- Forgetting the past events before a step changes nothing that is left when they are forgotten after
it. -/
theorem step_withoutTrace (s : State) :
    outcomeWithoutTrace (step s.withoutTrace) = outcomeWithoutTrace (step s) := by
  cases hs : s.status with
  | completed =>
    rw [step_of_completed hs, step_of_completed (s := s.withoutTrace) hs]
  | aborted token =>
    rw [step_of_aborted hs, step_of_aborted (s := s.withoutTrace) hs]
  | running =>
    cases hp : programProblem s.prog s.labels with
    | some why =>
      rw [step_of_problem hs hp, step_of_problem (s := s.withoutTrace) hs hp]
    | none =>
      cases hl : s.prog[s.pc]? with
      | none =>
        rw [step_of_end hs hp hl, step_of_end (s := s.withoutTrace) hs hp hl]
        rfl
      | some line =>
        rw [step_of_line hs hp hl, step_of_line (s := s.withoutTrace) hs hp hl]
        cases decodeLine line with
        | error why => rfl
        | ok l =>
          cases l with
          | skip => rfl
          | unknown m name =>
            have hraise : ForgetsTrace (fun _ => .error (.invalidArgument unknownMessage)) s := rfl
            exact perform_withoutTrace hraise m.cond
          | instr i => exact exec_withoutTrace i s

/-- Settles O53: both steps are the step from the one state without past events, by `step_withoutTrace`. -/
theorem pastEventsDoNotMatter : Obligations.PastEventsDoNotMatter := by
  intro s s' h
  rw [sameOutcome_iff]
  calc outcomeWithoutTrace (step s)
    _ = outcomeWithoutTrace (step s.withoutTrace) := (step_withoutTrace s).symm
    _ = outcomeWithoutTrace (step s'.withoutTrace) := by rw [h]
    _ = outcomeWithoutTrace (step s') := step_withoutTrace s'

/-! ## The first failing check -/

/-- A body fails as its instruction's first failing check does. -/
theorem instrBody_of_failure {i : Instr} {s : State} {f : Failure} (h : Instr.failure s i = some f) :
    instrBody i s = .error f := by
  rw [← failureOf_instrBody] at h
  cases hb : instrBody i s with
  | error f' => rw [hb] at h; rw [Option.some.inj h]
  | ok e => rw [hb] at h; cases h

/-- Settles O39: the body fails as its first failing check, and the failure says what is left. -/
theorem firstFailureDecides : Obligations.FirstFailureDecides := by
  intro i s f hc hfail
  have hexec : exec i s = .next (s.fail f) := by
    rw [exec_of_holds hc, instrBody_of_failure hfail, finish_error]
  rw [hexec]
  cases f with
  | outOfRange => exact ⟨_, congrArg _ (fail_outOfRange s)⟩
  | invalidArgument message => exact congrArg _ (fail_invalidArgument s message)
  | parseError token =>
    cases hpolicy : s.params.parseFailurePolicy with
    | abort => exact congrArg _ (fail_parseError_abort token hpolicy)
    | recoverAsInvalidArgument => exact ⟨_, congrArg _ (fail_parseError_recover token hpolicy)⟩

end Sys2Proof.Machine
end

section
/-! PROOFS of 70_reset_and_hazards.md. The values at reset (R300), and the program that `State.withFetchWord`
loads (R302): it is well-formed whenever its last line is, and its line at the pc is that last line. -/

namespace Sys2Proof.Machine

/-! ## Reset -/

theorem State.reset_x_getElem (i : RegIx) : State.reset.x[i] = 0 :=
  Vector.getElem_replicate i.isLt

theorem State.reset_mem_read (a : Nat) : Memory.read State.reset.mem a = 0 := rfl

/-- Settles O1: a reset register is an entry of a vector of zeros, and the reset memory lists no word. -/
theorem resetStateIsAllZero : Obligations.ResetStateIsAllZero :=
  ⟨State.reset_x_getElem, rfl, fun k _ => State.reset_mem_read (wordAddr k), State.reset_mem_read, rfl,
   rfl, rfl⟩

/-! ## A line loaded at the pc -/

theorem decodeTableWord_eq_some {nbits w : Nat} {i : Instr} :
    decodeTableWord nbits w = some i ↔ decodeLine (lineOfWord nbits w) = .ok (.instr i) := by
  unfold decodeTableWord
  cases decodeLine (lineOfWord nbits w) with
  | error why => simp
  | ok l => cases l <;> simp

/-- The line `NOP` that fills a loaded program up to its pc is a canonical line, which decodes. -/
theorem lineOk_nop : LineOk (opcodeText .nop) :=
  (decodeLine_ok_iff _).1 ⟨_, decodeReadsBackEncode (.nop ⟨false, none⟩) rfl⟩

theorem programAt_getElem?_pc (pc : Nat) (line : Text) : (programAt pc line)[pc]? = some line := by
  have hlen : (List.replicate pc (opcodeText .nop)).length = pc := List.length_replicate
  rw [programAt, List.getElem?_append_right hlen.le, hlen, Nat.sub_self, List.getElem?_cons_zero]

/-- A line that is well-formed makes the program loaded around it well-formed (30_encoding.md R125). -/
theorem programAt_ok {line : Text} (h : LineOk line) (pc : Nat) : ProgramOk (programAt pc line) [] := by
  refine ⟨List.append_ne_nil_of_right_ne_nil _ (List.cons_ne_nil line []), fun l hl => ?_, nofun,
    List.nodup_nil⟩
  rcases List.mem_append.1 hl with hnop | hline
  · rw [List.eq_of_mem_replicate hnop]
    exact lineOk_nop
  · rwa [List.mem_singleton.1 hline]

/-- Settles O50: the word's line decodes, so the program loaded around it is well-formed and the step runs
the line at the pc (`stepRunsDecodedInstruction`). -/
theorem fetchWordIsRun : Obligations.FetchWordIsRun := by
  intro s nbits w i h
  have hd : decodeLine (lineOfWord nbits w) = .ok (.instr i) := decodeTableWord_eq_some.1 h
  have hline : LineOk (lineOfWord nbits w) := (decodeLine_ok_iff _).1 ⟨_, hd⟩
  exact stepRunsDecodedInstruction (s.withFetchWord nbits w) (lineOfWord nbits w) i rfl
    (programAt_ok hline s.pc) (programAt_getElem?_pc s.pc _) hd

end Sys2Proof.Machine
end
